-- ==== Sys2Proof/Word.lean ====
section
/-! DEFINITION. The word types of the machine: the widths of rules R20, R25, R82 and R84. -/

namespace Sys2Proof

/-- A memory byte or a general register: 8 bits, unsigned (rules R20, R50). -/
abbrev Byte := BitVec 8

/-- An instruction word, `I`, `PC` or a stack slot: 16 bits, unsigned (rules R25, R26, R30, R81). -/
abbrev Word := BitVec 16

/-- A four-bit slice of an instruction word: a field `x`, `y` or `n` (rules R82, R84). -/
abbrev Nibble := BitVec 4

/-- The 12-bit field `nnn` (rule R84). -/
abbrev Addr12 := BitVec 12

/-- A register number from a nibble always names a register (rule R84). -/
theorem nibble_lt (r : Nibble) : r.toNat < 16 := r.isLt

end Sys2Proof
end

