-- ==== Sys2Proof/Syntax.lean ====
section
/-! DEFINITION. The 35 instructions of rule R85, one constructor per row of spec/opcode_table.json, in the table's order.
The fields are those of rule R84: `x`, `y`, `n` nibbles, `kk` a byte, `nnn` twelve bits. -/

namespace Sys2Proof

inductive Instr where
  /-- `00E0` CLS: clear the framebuffer (rule R201). -/
  | cls
  /-- `00EE` RET: return from subroutine (rule R111). -/
  | ret
  /-- `0nnn` SYS: no-op (rule R112). -/
  | sys (nnn : Addr12)
  /-- `1nnn` JP: jump (rule R113). -/
  | jp (nnn : Addr12)
  /-- `2nnn` CALL: call subroutine (rule R114). -/
  | call (nnn : Addr12)
  /-- `3xkk` SE Vx, kk: skip if register equals literal (rule R131). -/
  | seVxKk (x : Nibble) (kk : Byte)
  /-- `4xkk` SNE Vx, kk: skip if register differs from literal (rule R132). -/
  | sneVxKk (x : Nibble) (kk : Byte)
  /-- `5xy0` SE Vx, Vy: skip if registers equal (rule R133). -/
  | seVxVy (x y : Nibble)
  /-- `6xkk` LD Vx, kk: load literal (rule R151). -/
  | ldVxKk (x : Nibble) (kk : Byte)
  /-- `7xkk` ADD Vx, kk: add literal, no flag (rule R152). -/
  | addVxKk (x : Nibble) (kk : Byte)
  /-- `8xy0` LD Vx, Vy: copy register (rule R153). -/
  | ldVxVy (x y : Nibble)
  /-- `8xy1` OR Vx, Vy (rule R154). -/
  | orVxVy (x y : Nibble)
  /-- `8xy2` AND Vx, Vy (rule R155). -/
  | andVxVy (x y : Nibble)
  /-- `8xy3` XOR Vx, Vy (rule R156). -/
  | xorVxVy (x y : Nibble)
  /-- `8xy4` ADD Vx, Vy: add with carry out (rule R157). -/
  | addVxVy (x y : Nibble)
  /-- `8xy5` SUB Vx, Vy: subtract, not-borrow out (rule R158). -/
  | subVxVy (x y : Nibble)
  /-- `8xy6` SHR Vx: shift right one place; `y` is decoded and ignored (rules R88, R159). -/
  | shrVx (x y : Nibble)
  /-- `8xy7` SUBN Vx, Vy: reverse subtract, not-borrow out (rule R160). -/
  | subnVxVy (x y : Nibble)
  /-- `8xyE` SHL Vx: shift left one place; `y` is decoded and ignored (rules R88, R161). -/
  | shlVx (x y : Nibble)
  /-- `9xy0` SNE Vx, Vy: skip if registers differ (rule R134). -/
  | sneVxVy (x y : Nibble)
  /-- `Annn` LD I, nnn (rule R181). -/
  | ldINnn (nnn : Addr12)
  /-- `Bnnn` JP V0, nnn: jump with offset (rule R116). -/
  | jpV0 (nnn : Addr12)
  /-- `Cxkk` RND Vx, kk: masked random byte (rule R162). -/
  | rndVxKk (x : Nibble) (kk : Byte)
  /-- `Dxyn` DRW Vx, Vy, n: draw a sprite by exclusive or (rule R202). -/
  | drw (x y n : Nibble)
  /-- `Ex9E` SKP Vx: skip if key pressed (rule R135). -/
  | skp (x : Nibble)
  /-- `ExA1` SKNP Vx: skip if key not pressed (rule R136). -/
  | sknp (x : Nibble)
  /-- `Fx07` LD Vx, DT: read the delay timer (rule R221). -/
  | ldVxDt (x : Nibble)
  /-- `Fx0A` LD Vx, K: wait for a key (rule R222). -/
  | ldVxK (x : Nibble)
  /-- `Fx15` LD DT, Vx: set the delay timer (rule R223). -/
  | ldDtVx (x : Nibble)
  /-- `Fx18` LD ST, Vx: set the sound timer (rule R224). -/
  | ldStVx (x : Nibble)
  /-- `Fx1E` ADD I, Vx: add register to index (rule R182). -/
  | addIVx (x : Nibble)
  /-- `Fx29` LD F, Vx: point index at a font glyph (rule R183). -/
  | ldFVx (x : Nibble)
  /-- `Fx33` LD B, Vx: store three decimal digits (rule R185). -/
  | ldBVx (x : Nibble)
  /-- `Fx55` LD [I], Vx: store registers V0 to Vx (rule R186). -/
  | ldMemVx (x : Nibble)
  /-- `Fx65` LD Vx, [I]: load registers V0 to Vx (rule R187). -/
  | ldVxMem (x : Nibble)
  deriving DecidableEq, Repr

end Sys2Proof
end

