-- ==== Sys2Proof/Decode.lean ====
section
/-! DEFINITION. Decoding (rules R42, R82 to R88) and, after it, encoding. A word is an instruction only if it matches a
pattern of rule R85 in all its fixed nibbles; any other word is rejected by name (rule R87). -/

namespace Sys2Proof

/-- The high half of the word stands at the lower address (rule R55): `op = first * 256 + second`. -/
def joinBytes (first second : Byte) : Word := first ++ second

/-- The two bytes of a word in address order (rule R55). -/
def splitWord (op : Word) : List Byte := [op.extractLsb' 8 8, op.extractLsb' 0 8]

/-- The nibble n1, the major opcode (rules R9, R82). -/
def nibble1 (op : Word) : Nibble := op.extractLsb' 12 4

/-- The field `x` = n2 (rule R84). -/
def fieldX (op : Word) : Nibble := op.extractLsb' 8 4

/-- The field `y` = n3 (rule R84). -/
def fieldY (op : Word) : Nibble := op.extractLsb' 4 4

/-- The field `n` = n4 (rule R84). -/
def fieldN (op : Word) : Nibble := op.extractLsb' 0 4

/-- The field `kk` = n3 n4 (rule R84). -/
def fieldKk (op : Word) : Byte := op.extractLsb' 0 8

/-- The field `nnn` = n2 n3 n4 (rule R84). -/
def fieldNnn (op : Word) : Addr12 := op.extractLsb' 0 12

/-- Major opcode 0: two exact words, and `0nnn` for all others (rule R86). -/
def decodeMajor0 (nnn : Addr12) : Instr :=
  if nnn = 0x0E0 then .cls else if nnn = 0x0EE then .ret else .sys nnn

/-- Major opcode 8, selected by n4 (rule R85 rows 11 to 19). -/
def decodeMajor8 (x y n : Nibble) : Option Instr :=
  match n.toNat with
  | 0x0 => some (.ldVxVy x y)
  | 0x1 => some (.orVxVy x y)
  | 0x2 => some (.andVxVy x y)
  | 0x3 => some (.xorVxVy x y)
  | 0x4 => some (.addVxVy x y)
  | 0x5 => some (.subVxVy x y)
  | 0x6 => some (.shrVx x y)
  | 0x7 => some (.subnVxVy x y)
  | 0xE => some (.shlVx x y)
  | _ => none

/-- Major opcode E, selected by `kk` (rule R85 rows 25 and 26). -/
def decodeMajorE (x : Nibble) (kk : Byte) : Option Instr :=
  if kk = 0x9E then some (.skp x) else if kk = 0xA1 then some (.sknp x) else none

/-- Major opcode F, selected by `kk` (rule R85 rows 27 to 35). -/
def decodeMajorF (x : Nibble) (kk : Byte) : Option Instr :=
  if kk = 0x07 then some (.ldVxDt x)
  else if kk = 0x0A then some (.ldVxK x)
  else if kk = 0x15 then some (.ldDtVx x)
  else if kk = 0x18 then some (.ldStVx x)
  else if kk = 0x1E then some (.addIVx x)
  else if kk = 0x29 then some (.ldFVx x)
  else if kk = 0x33 then some (.ldBVx x)
  else if kk = 0x55 then some (.ldMemVx x)
  else if kk = 0x65 then some (.ldVxMem x)
  else none

/-- The instruction of the fields of a word, `none` where no row of rule R85 matches (rule R87). -/
def decodeFields (n1 x y n : Nibble) (kk : Byte) (nnn : Addr12) : Option Instr :=
  match n1.toNat with
  | 0x0 => some (decodeMajor0 nnn)
  | 0x1 => some (.jp nnn)
  | 0x2 => some (.call nnn)
  | 0x3 => some (.seVxKk x kk)
  | 0x4 => some (.sneVxKk x kk)
  | 0x5 => if n = 0 then some (.seVxVy x y) else none
  | 0x6 => some (.ldVxKk x kk)
  | 0x7 => some (.addVxKk x kk)
  | 0x8 => decodeMajor8 x y n
  | 0x9 => if n = 0 then some (.sneVxVy x y) else none
  | 0xA => some (.ldINnn nnn)
  | 0xB => some (.jpV0 nnn)
  | 0xC => some (.rndVxKk x kk)
  | 0xD => some (.drw x y n)
  | 0xE => decodeMajorE x kk
  | 0xF => decodeMajorF x kk
  | _ => none

/-- DECODE of rule R42: split the word into its fields and find its row of rule R85. -/
def decodeWord (op : Word) : Option Instr :=
  decodeFields (nibble1 op) (fieldX op) (fieldY op) (fieldN op) (fieldKk op) (fieldNnn op)

/-- Why bytes are no instruction. -/
inductive DecodeError where
  /-- The word matches no row of rule R85 (rule R87). -/
  | unknownOpcode (op : Word)
  /-- Fewer than the two bytes every instruction has (rule R81); a fetch never hands these to the decoder. -/
  | truncated (bytes : List Byte)
  deriving DecidableEq, Repr

/-- The instruction at the head of some bytes, and the bytes after it (rules R55, R81, R85, R87). -/
def decode : List Byte → Except DecodeError (Instr × List Byte)
  | first :: second :: rest =>
    match decodeWord (joinBytes first second) with
    | some i => .ok (i, rest)
    | none => .error (.unknownOpcode (joinBytes first second))
  | bytes => .error (.truncated bytes)

/-! ## Encoding: the patterns of rule R85, nibble by nibble (rule R83) -/

/-- The formats NNN, XKK, XYS with XYN, and XSS of rule R83, by their fixed parts. -/
def wordNnn (n1 : Nibble) (nnn : Addr12) : Word := n1 ++ nnn
def wordXkk (n1 x : Nibble) (kk : Byte) : Word := n1 ++ x ++ kk
def wordXyn (n1 x y n : Nibble) : Word := n1 ++ x ++ y ++ n

/-- The word of an instruction. -/
def encode : Instr → Word
  | .cls => 0x00E0
  | .ret => 0x00EE
  | .sys nnn => wordNnn 0x0 nnn
  | .jp nnn => wordNnn 0x1 nnn
  | .call nnn => wordNnn 0x2 nnn
  | .seVxKk x kk => wordXkk 0x3 x kk
  | .sneVxKk x kk => wordXkk 0x4 x kk
  | .seVxVy x y => wordXyn 0x5 x y 0x0
  | .ldVxKk x kk => wordXkk 0x6 x kk
  | .addVxKk x kk => wordXkk 0x7 x kk
  | .ldVxVy x y => wordXyn 0x8 x y 0x0
  | .orVxVy x y => wordXyn 0x8 x y 0x1
  | .andVxVy x y => wordXyn 0x8 x y 0x2
  | .xorVxVy x y => wordXyn 0x8 x y 0x3
  | .addVxVy x y => wordXyn 0x8 x y 0x4
  | .subVxVy x y => wordXyn 0x8 x y 0x5
  | .shrVx x y => wordXyn 0x8 x y 0x6
  | .subnVxVy x y => wordXyn 0x8 x y 0x7
  | .shlVx x y => wordXyn 0x8 x y 0xE
  | .sneVxVy x y => wordXyn 0x9 x y 0x0
  | .ldINnn nnn => wordNnn 0xA nnn
  | .jpV0 nnn => wordNnn 0xB nnn
  | .rndVxKk x kk => wordXkk 0xC x kk
  | .drw x y n => wordXyn 0xD x y n
  | .skp x => wordXkk 0xE x 0x9E
  | .sknp x => wordXkk 0xE x 0xA1
  | .ldVxDt x => wordXkk 0xF x 0x07
  | .ldVxK x => wordXkk 0xF x 0x0A
  | .ldDtVx x => wordXkk 0xF x 0x15
  | .ldStVx x => wordXkk 0xF x 0x18
  | .addIVx x => wordXkk 0xF x 0x1E
  | .ldFVx x => wordXkk 0xF x 0x29
  | .ldBVx x => wordXkk 0xF x 0x33
  | .ldMemVx x => wordXkk 0xF x 0x55
  | .ldVxMem x => wordXkk 0xF x 0x65

/-- The bytes of an instruction in address order (rule R55). -/
def encodeBytes (i : Instr) : List Byte := splitWord (encode i)

/-- The word whose bits spec/opcode_table.json numbers as `w`: one 16-bit word, bit 0 its least significant; bits from
`nbits` up are 0. -/
def tableWord (nbits w : Nat) : Word := BitVec.ofNat 16 (w % 2 ^ nbits)

/-- What the decoder reads from the instruction whose bits are `w`, laid out as memory holds it (rule R55). -/
def decodeTableWord (nbits w : Nat) : Option Instr :=
  match decode (splitWord (tableWord nbits w)) with
  | .ok (i, _) => some i
  | .error _ => none

/-! ## The opcode map (rule R85), as the spec writes it: masks and matches -/

/-- One row of the table of rule R85. -/
structure OpcodeRow where
  number : Nat
  mask : Word
  pattern : Word
  deriving DecidableEq, Repr

/-- Rows 1 to 10 of rule R85. -/
def opcodeRowsFlow : List OpcodeRow :=
  [⟨1, 0xFFFF, 0x00E0⟩,
   ⟨2, 0xFFFF, 0x00EE⟩,
   ⟨3, 0xF000, 0x0000⟩,
   ⟨4, 0xF000, 0x1000⟩,
   ⟨5, 0xF000, 0x2000⟩,
   ⟨6, 0xF000, 0x3000⟩,
   ⟨7, 0xF000, 0x4000⟩,
   ⟨8, 0xF00F, 0x5000⟩,
   ⟨9, 0xF000, 0x6000⟩,
   ⟨10, 0xF000, 0x7000⟩]

/-- Rows 11 to 20 of rule R85. -/
def opcodeRowsAlu : List OpcodeRow :=
  [⟨11, 0xF00F, 0x8000⟩,
   ⟨12, 0xF00F, 0x8001⟩,
   ⟨13, 0xF00F, 0x8002⟩,
   ⟨14, 0xF00F, 0x8003⟩,
   ⟨15, 0xF00F, 0x8004⟩,
   ⟨16, 0xF00F, 0x8005⟩,
   ⟨17, 0xF00F, 0x8006⟩,
   ⟨18, 0xF00F, 0x8007⟩,
   ⟨19, 0xF00F, 0x800E⟩,
   ⟨20, 0xF00F, 0x9000⟩]

/-- Rows 21 to 26 of rule R85. -/
def opcodeRowsWide : List OpcodeRow :=
  [⟨21, 0xF000, 0xA000⟩,
   ⟨22, 0xF000, 0xB000⟩,
   ⟨23, 0xF000, 0xC000⟩,
   ⟨24, 0xF000, 0xD000⟩,
   ⟨25, 0xF0FF, 0xE09E⟩,
   ⟨26, 0xF0FF, 0xE0A1⟩]

/-- Rows 27 to 35 of rule R85. -/
def opcodeRowsMajorF : List OpcodeRow :=
  [⟨27, 0xF0FF, 0xF007⟩,
   ⟨28, 0xF0FF, 0xF00A⟩,
   ⟨29, 0xF0FF, 0xF015⟩,
   ⟨30, 0xF0FF, 0xF018⟩,
   ⟨31, 0xF0FF, 0xF01E⟩,
   ⟨32, 0xF0FF, 0xF029⟩,
   ⟨33, 0xF0FF, 0xF033⟩,
   ⟨34, 0xF0FF, 0xF055⟩,
   ⟨35, 0xF0FF, 0xF065⟩]

/-- The table of rule R85. -/
def opcodeMap : List OpcodeRow := opcodeRowsFlow ++ opcodeRowsAlu ++ opcodeRowsWide ++ opcodeRowsMajorF

/-- Whether a word matches a row: `(op and mask) = match`. -/
def OpcodeRow.matches (r : OpcodeRow) (op : Word) : Bool := op &&& r.mask == r.pattern

/-- The row of an instruction in the table of rule R85. -/
def Instr.rowNumber : Instr → Nat
  | .cls => 1
  | .ret => 2
  | .sys _ => 3
  | .jp _ => 4
  | .call _ => 5
  | .seVxKk _ _ => 6
  | .sneVxKk _ _ => 7
  | .seVxVy _ _ => 8
  | .ldVxKk _ _ => 9
  | .addVxKk _ _ => 10
  | .ldVxVy _ _ => 11
  | .orVxVy _ _ => 12
  | .andVxVy _ _ => 13
  | .xorVxVy _ _ => 14
  | .addVxVy _ _ => 15
  | .subVxVy _ _ => 16
  | .shrVx _ _ => 17
  | .subnVxVy _ _ => 18
  | .shlVx _ _ => 19
  | .sneVxVy _ _ => 20
  | .ldINnn _ => 21
  | .jpV0 _ => 22
  | .rndVxKk _ _ => 23
  | .drw _ _ _ => 24
  | .skp _ => 25
  | .sknp _ => 26
  | .ldVxDt _ => 27
  | .ldVxK _ => 28
  | .ldDtVx _ => 29
  | .ldStVx _ => 30
  | .addIVx _ => 31
  | .ldFVx _ => 32
  | .ldBVx _ => 33
  | .ldMemVx _ => 34
  | .ldVxMem _ => 35

end Sys2Proof
end

