-- ==== Sys2Proof/Config.lean ====
section
/-! DEFINITION. What is fixed for the machine (rule R7) and the one free value: the random byte (rules R8, R162, R267). -/

namespace Sys2Proof.Config

/-- MEM_SIZE: addresses 0x000 to 0xFFF (rules R7, R50). -/
def memSize : Nat := 4096

/-- ENTRY's default, the value of `PC` after a reset with no argument (rules R8, R281). -/
def entry : Word := 0x0200

/-- The random byte of the `k`-th draw (rules R162, R267; log entry 1). It has no body: nothing can be proved of its
value, so whatever is proved of a step holds for every byte the environment may supply. -/
opaque randomByte : Nat → Byte

end Sys2Proof.Config
end

