-- ==== Sys2Proof/Machine/State.lean ====
section
/-! DEFINITION. The state of the machine (rules R20 to R38), the reasons a step stops (rule R241), and the state after
reset (rule R280). -/

namespace Sys2Proof.Machine

/-- Memory as (address, byte) pairs, addresses strictly rising; an address not listed reads as its value after reset
(`Memory.background`, Machine/Ops.lean). The form is `Memory.wf`. -/
abbrev Memory := List Host.Cell

/-- The framebuffer: 32 rows, row 0 first, of 64 one-bit cells; the cell of column `px` and row `py`, `fb[px + 64 * py]` in
the spec's numbering (rule R34), is bit `px` of row `py`. It is read and written through `cellOf` and `toggleCell`. -/
abbrev Frame := Vector (BitVec 64) 32

/-- Every piece of state the spec gives the machine (rule R14), and one of the model's own, `draws`. -/
structure State where
  /-- The general registers `V0` to `VF`; `VF` is also the flag (rules R20, R23). -/
  v : Vector Byte 16
  /-- The index register `I` (rule R25). -/
  i : Word
  /-- The program counter (rule R26). -/
  pc : Word
  /-- The call stack's sixteen slots (rule R30). -/
  stack : Vector Word 16
  /-- The stack pointer: how many return addresses are on the stack, 0 to 16 (rule R31). -/
  sp : Fin 17
  /-- The delay timer (rule R32). -/
  dt : Byte
  /-- The sound timer (rule R33). -/
  st : Byte
  /-- The framebuffer (rule R34). -/
  fb : Frame
  /-- The key state: bit `k` is 1 while key `k` is pressed (rule R35). -/
  keys : BitVec 16
  /-- The 4096 bytes of memory (rules R36, R50). -/
  mem : Memory
  /-- THE MODEL'S OWN: how many random bytes have been drawn (log entry 1). -/
  draws : Nat
  deriving DecidableEq, Repr

/-- What an `OutOfBounds` error was about (rule R241). -/
inductive Cause where
  /-- The fetch's second byte would stand beyond memory. -/
  | fetch
  /-- A data address of 4096 or more. -/
  | data
  /-- A key number above 15. -/
  | key
  /-- A `load` beyond memory. -/
  | load
  deriving DecidableEq, Repr

/-- The four error kinds (rules R240, R241). Each ends its event with nothing changed (rule R245), which is why no state
comes with it. They are the hardware's own results, not stops of the model: neither safe nor unsafe by themselves. -/
inductive Fault where
  /-- Raised by the fetch of any step, by `Dxyn`, `Fx33`, `Fx55`, `Fx65` (data), by `Ex9E`, `ExA1` (key) and by the `load`
  event; `value` is the offending address or key number (rule R241). Safe: a realisation that wraps would go on. -/
  | outOfBounds (cause : Cause) (value : Nat)
  /-- Raised by `2nnn` with `SP = 16`; `pc` is its address (rule R114). Safe: nothing goes on. -/
  | stackOverflow (pc : Word)
  /-- Raised by `00EE` with `SP = 0`; `pc` is its address (rule R111). Safe: nothing goes on. -/
  | stackUnderflow (pc : Word)
  /-- Raised by the decode of any step whose word matches no row of rule R85 (rule R87). Safe: a lax decoder would go on. -/
  | unknownOpcode (opcode pc : Word)
  deriving DecidableEq, Repr

/-- Reasons the model gives no meaning. -/
inductive Refusal where
  /-- An instruction with no meaning yet; raised by an arm of `exec` alone, and by none now. Safe: the model stops. -/
  | notModelled (mnemonic : String)
  deriving DecidableEq, Repr

/-- What a step or an instruction answers. -/
abbrev StepResult := Host.Outcome State Fault Refusal

/-- The state after `reset` with no argument (rule R280): all zero but `PC`, and memory as reset leaves it, nothing listed. -/
def State.reset : State where
  v := Vector.replicate 16 0
  i := 0
  pc := Config.entry
  stack := Vector.replicate 16 0
  sp := 0
  dt := 0
  st := 0
  fb := Vector.replicate 32 0
  keys := 0
  mem := []
  draws := 0

end Sys2Proof.Machine
end

