-- ==== Sys2Proof/Machine/Params.lean ====
section
/-! DEFINITION. What the spec leaves open and the model takes as an argument, with the default values: FONT (rules R8, R283) and
the sprite bit order (rule R206). -/

namespace Sys2Proof.Machine

/-- A FONT: the 80 bytes that a reset writes at addresses 0 to 79 (rules R7, R283). -/
abbrev Font := Vector Byte 80

/-- The parameters of a machine. -/
structure Params where
  /-- The bytes of the font table (rules R8, R283). -/
  font : Font
  /-- The sprite bit order: whether bit 7 of a sprite byte is the leftmost pixel, or else bit 0 (rule R206). -/
  spriteMsbFirst : Bool
  deriving DecidableEq, Repr

namespace Default

/-- Glyphs 0 to 3 of the conventional font table, five bytes each (rule R283). -/
def glyphs0 : List Byte :=
  [0xF0, 0x90, 0x90, 0x90, 0xF0] ++ [0x20, 0x60, 0x20, 0x20, 0x70] ++
  [0xF0, 0x10, 0xF0, 0x80, 0xF0] ++ [0xF0, 0x10, 0xF0, 0x10, 0xF0]

/-- Glyphs 4 to 7 (rule R283). -/
def glyphs4 : List Byte :=
  [0x90, 0x90, 0xF0, 0x10, 0x10] ++ [0xF0, 0x80, 0xF0, 0x10, 0xF0] ++
  [0xF0, 0x80, 0xF0, 0x90, 0xF0] ++ [0xF0, 0x10, 0x20, 0x40, 0x40]

/-- Glyphs 8 to B (rule R283). -/
def glyphs8 : List Byte :=
  [0xF0, 0x90, 0xF0, 0x90, 0xF0] ++ [0xF0, 0x90, 0xF0, 0x10, 0xF0] ++
  [0xF0, 0x90, 0xF0, 0x90, 0x90] ++ [0xE0, 0x90, 0xE0, 0x90, 0xE0]

/-- Glyphs C to F (rule R283). -/
def glyphsC : List Byte :=
  [0xF0, 0x80, 0x80, 0x80, 0xF0] ++ [0xE0, 0x90, 0x90, 0x90, 0xE0] ++
  [0xF0, 0x80, 0xF0, 0x80, 0xF0] ++ [0xF0, 0x80, 0xF0, 0x80, 0x80]

/-- FONT's default (rule R283). PRESUMED, unsafe: the bytes are the family's conventional table, not the source's
(log entry 2). -/
def font : Font := ⟨(glyphs0 ++ glyphs4 ++ glyphs8 ++ glyphsC).toArray, rfl⟩

/-- The default sprite bit order: bit 7 is the leftmost (rule R206). PRESUMED, unsafe: the family's convention
(log entry 4). -/
def spriteMsbFirst : Bool := true

/-- Both defaults: the parameters of `State.reset`, `exec` and `step`. -/
def params : Params := ⟨font, spriteMsbFirst⟩

end Default

end Sys2Proof.Machine
end

