-- ==== Sys2Proof/Machine/Ops.lean ====
section
/-! DEFINITION. The named operations over memory, registers, the stack, the framebuffer and `PC`, raising an error, and the
fetch. Every read and write of the state goes through these. -/

namespace Sys2Proof.Machine

/-! ## Memory (rules R50 to R66) -/

/-- What an unlisted byte reads as: what `State.reset` leaves there, the default FONT at 0 to 79 and 0 elsewhere (rules R36,
R280). -/
def Memory.background (a : Nat) : Byte := (Default.font[a]?).getD 0

/-- `MemRead(a, 1)` (rule R53). -/
def Memory.read (m : Memory) (a : Nat) : Byte :=
  match m with
  | [] => Memory.background a
  | (k, b) :: rest => if k = a then b else Memory.read rest a

/-- The listed cells but for one address. -/
def Memory.drop (m : Memory) (a : Nat) : Memory := m.filter (fun c => c.1 != a)

/-- List a cell before the first higher address. -/
def Memory.insert (m : Memory) (a : Nat) (b : Byte) : Memory :=
  match m with
  | [] => [(a, b)]
  | (k, c) :: rest => if a < k then (a, b) :: (k, c) :: rest else (k, c) :: Memory.insert rest a b

/-- `MemWrite(a, 1, b)` (rule R53): a byte written with its value after reset is not listed. -/
def Memory.write (m : Memory) (a : Nat) (b : Byte) : Memory :=
  if b = Memory.background a then Memory.drop m a else Memory.insert (Memory.drop m a) a b

/-- Bytes written at `a`, `a + 1`, ... (rules R57, R60, R185, R186). -/
def Memory.writeBytes (m : Memory) (a : Nat) (bytes : List Byte) : Memory :=
  match bytes with
  | [] => m
  | b :: rest => Memory.writeBytes (Memory.write m a b) (a + 1) rest

/-- The `len` bytes at `a`, `a + 1`, ... (rules R57, R187, R202). -/
def Memory.readBytes (m : Memory) (a len : Nat) : List Byte :=
  (List.range len).map (fun k => Memory.read m (a + k))

/-- The canonical form: addresses strictly rising and below 4096, and no cell listed with the value it has after reset. -/
abbrev Memory.wf (m : Memory) : Prop :=
  m.Pairwise (fun c d => c.1 < d.1) ∧ ∀ c ∈ m, c.1 < Config.memSize ∧ c.2 ≠ Memory.background c.1

/-- One byte of the machine's memory. -/
def State.readByte (s : State) (a : Nat) : Byte := Memory.read s.mem a

/-- Memory replaced. -/
def State.setMem (s : State) (m : Memory) : State := { s with mem := m }

/-- Bytes stored at `a`, `a + 1`, .... -/
def State.storeBytes (s : State) (a : Nat) (bytes : List Byte) : State := s.setMem (Memory.writeBytes s.mem a bytes)

/-! ## Registers (rules R20 to R33) -/

/-- `V[r]`. -/
def State.reg (s : State) (r : Nibble) : Byte := s.v[r.toNat]'(nibble_lt r)

/-- `V[r] <- b`. -/
def State.setReg (s : State) (r : Nibble) (b : Byte) : State := { s with v := s.v.set r.toNat b (nibble_lt r) }

/-- The number of the flag register `VF` (rule R23). -/
def flagReg : Nibble := 15#4

/-- `I <- w`. -/
def State.setI (s : State) (w : Word) : State := { s with i := w }

/-- `DT <- b`. -/
def State.setDt (s : State) (b : Byte) : State := { s with dt := b }

/-- `ST <- b`. -/
def State.setSt (s : State) (b : Byte) : State := { s with st := b }

/-- `keys <- k`: the host's `keys` event alone writes it (rule R35). -/
def State.setKeys (s : State) (k : BitVec 16) : State := { s with keys := k }

/-- One more random byte drawn: the model's own field (log entry 1). -/
def State.countDraw (s : State) : State := { s with draws := s.draws + 1 }

/-- `V[k] <- bytes[k]` for each byte, from register `k` on (rule R187). -/
def Regs.load (v : Vector Byte 16) (k : Nat) (bytes : List Byte) : Vector Byte 16 :=
  match bytes with
  | [] => v
  | b :: rest => Regs.load (v.setIfInBounds k b) (k + 1) rest

/-- `V[0]`, `V[1]`, ... loaded with bytes. -/
def State.loadRegs (s : State) (bytes : List Byte) : State := { s with v := Regs.load s.v 0 bytes }

/-- `V[0]` to `V[x]` (rule R186). -/
def State.regsUpTo (s : State) (x : Nibble) : List Byte := s.v.toList.take (x.toNat + 1)

/-! ## The program counter (rules R26 to R29, R90) -/

/-- `PC <- t`. -/
def State.jump (s : State) (t : Word) : State := { s with pc := t }

/-- Sequential: `PC <- PC + 2` (rule R90). -/
def State.advance (s : State) : State := s.jump (s.pc + 2#16)

/-- Skip when the condition holds: `PC <- PC + 4`, else `PC <- PC + 2` (rules R90, R130). -/
def State.skipIf (s : State) (c : Bool) : State := s.jump (if c then s.pc + 4#16 else s.pc + 2#16)

/-! ## The call stack (rules R30, R31) -/

/-- A push writes `stack[SP]` and then adds 1 to `SP`; none with `SP = 16` (rule R31). -/
def State.push? (s : State) (ret : Word) : Option State :=
  if h : s.sp.val < 16 then
    some { s with stack := s.stack.set s.sp.val ret h, sp := ⟨s.sp.val + 1, Nat.succ_lt_succ h⟩ }
  else none

/-- A pop subtracts 1 from `SP` and then reads `stack[SP]`, which keeps its bits; none with `SP = 0` (rule R31). -/
def State.pop? (s : State) : Option (Word × State) :=
  if h : 0 < s.sp.val then
    some (s.stack[s.sp.val - 1]'(by omega), { s with sp := ⟨s.sp.val - 1, by omega⟩ })
  else none

/-! ## The framebuffer (rules R34, R200, R203) -/

/-- `fb[j]`, for `j` below 2048 the cell of column `j mod 64` and row `j div 64` (rule R34). -/
def cellOf (fb : Frame) (j : Nat) : Bool := (fb[j / 64]?.getD 0).getLsbD (j % 64)

/-- `fb[j] <- fb[j] xor 1` (rule R202). -/
def toggleCell (fb : Frame) (j : Nat) : Frame :=
  fb.setIfInBounds (j / 64) (fb[j / 64]?.getD 0 ^^^ (1#64 <<< (j % 64)))

/-- Toggle cells one after another; the flag says whether one that was 1 was met (rule R202). -/
def drawCells (cells : List Nat) (hit : Bool) (fb : Frame) : Bool × Frame :=
  match cells with
  | [] => (hit, fb)
  | j :: rest => drawCells rest (hit || cellOf fb j) (toggleCell fb j)

/-- `fb[j]` of the machine. -/
def State.cell (s : State) (j : Nat) : Bool := cellOf s.fb j

/-- The framebuffer replaced. -/
def State.setFb (s : State) (fb : Frame) : State := { s with fb := fb }

/-- Every cell 0 (rule R201). -/
def blankFrame : Frame := Vector.replicate 32 0

/-! ## Errors (rules R240 to R249) -/

/-- `raise E(info)`: the step ends with the error and applies no write, so no state comes with it (rules R11, R245). This is the
hardware's whole exception entry: nothing is saved and control goes nowhere; there is no return from it (rule R249). -/
def raise (e : Fault) : StepResult := .fault e

/-- The numeric code of an error (rule R241). -/
def Fault.code : Fault → Nat
  | .outOfBounds _ _ => 1
  | .stackOverflow _ => 2
  | .stackUnderflow _ => 3
  | .unknownOpcode _ _ => 4

/-! ## Fetch (rules R42, R80) -/

/-- FETCH: the word at `PC`, or `OutOfBounds(fetch, PC)` when `PC + 1 >= 4096` (rule R80). -/
def fetchWord (s : State) : Except Fault Word :=
  if Config.memSize ≤ s.pc.toNat + 1 then .error (.outOfBounds .fetch s.pc.toNat)
  else .ok (joinBytes (s.readByte s.pc.toNat) (s.readByte (s.pc.toNat + 1)))

/-- A word stored where the next fetch reads it. Where `PC` is one no fetch succeeds at (rule R80), `PC` becomes ENTRY
first. -/
def State.placeWord (s : State) (op : Word) : State :=
  let t := if Config.memSize ≤ s.pc.toNat + 1 then s.jump Config.entry else s
  t.storeBytes t.pc.toNat (splitWord op)

end Sys2Proof.Machine
end

