-- ==== Sys2Proof/Machine/Operands.lean ====
section
/-! DEFINITION. The operand forms: literals, key numbers, data at `I`, decimal digits, and the cells under a sprite. -/

namespace Sys2Proof.Machine

/-- `zext_16(nnn)` (rules R84, R113, R181). -/
def address (nnn : Addr12) : Word := nnn.setWidth 16

/-- `zext_16` of a register value (rules R116, R182). -/
def widen (b : Byte) : Word := b.setWidth 16

/-! ## Key numbers (rules R135, R136, R222) -/

/-- `keys[k] = 1`. -/
def keyDown (keys : BitVec 16) (k : Nat) : Bool := keys.getLsbD k

/-- The least pressed key, none where no key is pressed (rule R222). -/
def leastKey (keys : BitVec 16) : Option Nat := (List.range 16).find? (keyDown keys)

/-- What an instruction that takes `V[x]` as a key number answers: `OutOfBounds(key, V[x])` above 15 (rules R135, R136). -/
def withKey (s : State) (x : Nibble) (t : State) : StepResult :=
  if 15 < (s.reg x).toNat then raise (.outOfBounds .key (s.reg x).toNat) else .next t

/-! ## Data at I (rules R54, R180) -/

/-- Whether the `len` addresses from `I` on all exist; true of none at all (rule R54). -/
def State.dataFits (s : State) (len : Nat) : Bool := len == 0 || s.i.toNat + (len - 1) < Config.memSize

/-- What an instruction that touches the `len` addresses from `I` on answers: `OutOfBounds(data, max(I, 4096))` where one does
not exist, before any effect (rules R54, R246). -/
def withData (s : State) (len : Nat) (t : State) : StepResult :=
  if s.dataFits len then .next t else raise (.outOfBounds .data (max s.i.toNat Config.memSize))

/-- The `len` bytes from `I` on. -/
def State.dataBytes (s : State) (len : Nat) : List Byte := Memory.readBytes s.mem s.i.toNat len

/-- The three decimal digits of a byte, hundreds first (rule R185). -/
def digits (b : Byte) : List Byte :=
  [BitVec.ofNat 8 (b.toNat / 100), BitVec.ofNat 8 (b.toNat / 10 % 10), BitVec.ofNat 8 (b.toNat % 10)]

/-- The address of the glyph of a register value, `5 * V[x]` (rule R183). -/
def glyphAddress (b : Byte) : Word := BitVec.ofNat 16 (5 * b.toNat)

/-! ## Sprites (rules R202 to R206) -/

/-- The bit of a sprite byte for a column 0 to 7, 0 the leftmost, by the bit order of rule R206 (rule R202). -/
def spriteBit (msbFirst : Bool) (b : Byte) (col : Nat) : Bool :=
  if msbFirst then b.getLsbD (7 - col) else b.getLsbD col

/-- The cell that column `col` and row `row` of a sprite at `(vx, vy)` falls on: each coordinate wraps on its own
(rules R202, R204). -/
def spriteCell (vx vy row col : Nat) : Nat := (vx + col) % 64 + 64 * ((vy + row) % 32)

/-- The cells under the 1 bits of one sprite row, left to right. -/
def rowCells (msbFirst : Bool) (vx vy row : Nat) (b : Byte) : List Nat :=
  ((List.range 8).filter (spriteBit msbFirst b)).map (spriteCell vx vy row)

/-- The cells under the 1 bits of a sprite whose next row is `row`, in the order of rule R202's loops. -/
def spriteCells (msbFirst : Bool) (vx vy row : Nat) (bytes : List Byte) : List Nat :=
  match bytes with
  | [] => []
  | b :: rest => rowCells msbFirst vx vy row b ++ spriteCells msbFirst vx vy (row + 1) rest

end Sys2Proof.Machine
end

