-- ==== Sys2Proof/Machine/Flags.lean ====
section
/-! DEFINITION. The flag `VF` (rule R23): the five flags of the ALU, and the write of a result with its flag. -/

namespace Sys2Proof.Machine

/-- A flag as the byte `VF` holds: 1 or 0 (rule R23). -/
def flagByte (c : Bool) : Byte := if c then 1 else 0

/-- Carry: the unsigned sum exceeds 255 (rule R157). -/
def carryOut (a b : Byte) : Bool := 255 < a.toNat + b.toNat

/-- Not borrow of `a - b`: `a >= b` (rules R158, R160). -/
def notBorrow (a b : Byte) : Bool := b.toNat ≤ a.toNat

/-- The bit a shift right by one place shifts out (rule R159). -/
def lowBit (a : Byte) : Bool := a.getLsbD 0

/-- The bit a shift left by one place shifts out (rule R161). -/
def highBit (a : Byte) : Bool := a.getLsbD 7

/-- `V[15] <- flag`. -/
def State.setFlag (s : State) (c : Bool) : State := s.setReg flagReg (flagByte c)

/-- `V[x] <- result` and `V[15] <- flag`, the flag last, so that it stays where `x` is 15 (rules R12, R150). -/
def State.setResult (s : State) (x : Nibble) (result : Byte) (c : Bool) : State := (s.setReg x result).setFlag c

end Sys2Proof.Machine
end

