-- ==== Sys2Proof/Machine/Alu.lean ====
section
/-! DEFINITION. Register loads and the 8-bit ALU: 6xkk, 7xkk, 8xy0 to 8xy7, 8xyE, Cxkk (42_alu.md). -/

namespace Sys2Proof.Machine

/-- `6xkk` (rule R151). -/
def execLdVxKk (x : Nibble) (kk : Byte) (s : State) : StepResult := .next (s.setReg x kk).advance

/-- `7xkk`: no flag (rule R152). -/
def execAddVxKk (x : Nibble) (kk : Byte) (s : State) : StepResult := .next (s.setReg x (s.reg x + kk)).advance

/-- `8xy0` (rule R153). -/
def execLdVxVy (x y : Nibble) (s : State) : StepResult := .next (s.setReg x (s.reg y)).advance

/-- `8xy1`: `VF` is not written (rule R154). -/
def execOrVxVy (x y : Nibble) (s : State) : StepResult := .next (s.setReg x (s.reg x ||| s.reg y)).advance

/-- `8xy2`: `VF` is not written (rule R155). -/
def execAndVxVy (x y : Nibble) (s : State) : StepResult := .next (s.setReg x (s.reg x &&& s.reg y)).advance

/-- `8xy3`: `VF` is not written (rule R156). -/
def execXorVxVy (x y : Nibble) (s : State) : StepResult := .next (s.setReg x (s.reg x ^^^ s.reg y)).advance

/-- `8xy4` (rule R157). -/
def execAddVxVy (x y : Nibble) (s : State) : StepResult :=
  .next (s.setResult x (s.reg x + s.reg y) (carryOut (s.reg x) (s.reg y))).advance

/-- `8xy5` (rule R158). -/
def execSubVxVy (x y : Nibble) (s : State) : StepResult :=
  .next (s.setResult x (s.reg x - s.reg y) (notBorrow (s.reg x) (s.reg y))).advance

/-- `8xy6`: `y` is ignored (rule R159). -/
def execShrVx (x _y : Nibble) (s : State) : StepResult :=
  .next (s.setResult x (s.reg x >>> 1) (lowBit (s.reg x))).advance

/-- `8xy7` (rule R160). -/
def execSubnVxVy (x y : Nibble) (s : State) : StepResult :=
  .next (s.setResult x (s.reg y - s.reg x) (notBorrow (s.reg y) (s.reg x))).advance

/-- `8xyE`: `y` is ignored (rule R161). -/
def execShlVx (x _y : Nibble) (s : State) : StepResult :=
  .next (s.setResult x (s.reg x <<< 1) (highBit (s.reg x))).advance

/-- The state after `Cxkk` when the step's random byte is `rnd` (rule R162). -/
def rndState (rnd : Byte) (x : Nibble) (kk : Byte) (s : State) : State := (s.setReg x (rnd &&& kk)).advance

/-- `Cxkk`: the random byte is a free value, a fresh one for each draw (rules R162, R267; log entry 1). -/
def execRndVxKk (x : Nibble) (kk : Byte) (s : State) : StepResult :=
  .next (rndState (Config.randomByte s.draws) x kk s).countDraw

end Sys2Proof.Machine
end

