-- ==== Sys2Proof/Machine/Display.lean ====
section
/-! DEFINITION. The framebuffer instructions: 00E0, Dxyn (44_display.md). -/

namespace Sys2Proof.Machine

/-- `00E0`: `VF` is not written (rule R201). -/
def execCls (s : State) : StepResult := .next (s.setFb blankFrame).advance

/-- The cells under the 1 bits of the sprite that `Dxyn` draws: column `V[x]`, row `V[y]`, `n` bytes from `I` on (rule R202). -/
def State.drawnCells (s : State) (msbFirst : Bool) (x y n : Nibble) : List Nat :=
  spriteCells msbFirst (s.reg x).toNat (s.reg y).toNat 0 (s.dataBytes n.toNat)

/-- The state after `Dxyn` when its data addresses exist: the cells toggled, `VF` the collision (rule R202). -/
def drawState (msbFirst : Bool) (x y n : Nibble) (s : State) : State :=
  let drawn := drawCells (s.drawnCells msbFirst x y n) false s.fb
  ((s.setFb drawn.2).setFlag drawn.1).advance

/-- `Dxyn` by a sprite bit order (rules R202, R206). -/
def execDrwIn (msbFirst : Bool) (x y n : Nibble) (s : State) : StepResult := withData s n.toNat (drawState msbFirst x y n s)

/-- `Dxyn` by the default bit order (rules R202, R206; log entry 4). -/
def execDrw (x y n : Nibble) (s : State) : StepResult := execDrwIn Default.spriteMsbFirst x y n s

end Sys2Proof.Machine
end

