-- ==== Sys2Proof/Machine/Flow.lean ====
section
/-! DEFINITION. Control transfer and the call stack: 00EE, 0nnn, 1nnn, 2nnn, Bnnn (40_flow.md). -/

namespace Sys2Proof.Machine

/-- `00EE` (rule R111). -/
def execRet (s : State) : StepResult :=
  match s.pop? with
  | none => raise (.stackUnderflow s.pc)
  | some (target, t) => .next (t.jump target)

/-- `0nnn`: a no-op, `nnn` ignored (rule R112). -/
def execSys (_nnn : Addr12) (s : State) : StepResult := .next s.advance

/-- `1nnn` (rule R113). -/
def execJp (nnn : Addr12) (s : State) : StepResult := .next (s.jump (address nnn))

/-- `2nnn`: the address pushed is that of the instruction after the call (rule R114). -/
def execCall (nnn : Addr12) (s : State) : StepResult :=
  match s.push? (s.pc + 2#16) with
  | none => raise (.stackOverflow s.pc)
  | some t => .next (t.jump (address nnn))

/-- `Bnnn`: always `V[0]`; the sum is not masked (rule R116). -/
def execJpV0 (nnn : Addr12) (s : State) : StepResult := .next (s.jump (address nnn + widen (s.reg 0)))

end Sys2Proof.Machine
end

