-- ==== Sys2Proof/Machine/IndexMemory.lean ====
section
/-! DEFINITION. The index register and loads and stores: Annn, Fx1E, Fx29, Fx33, Fx55, Fx65 (43_index_memory.md). -/

namespace Sys2Proof.Machine

/-- `Annn` (rule R181). -/
def execLdINnn (nnn : Addr12) (s : State) : StepResult := .next (s.setI (address nnn)).advance

/-- `Fx1E`: modulo 65536, no flag (rule R182). -/
def execAddIVx (x : Nibble) (s : State) : StepResult := .next (s.setI (s.i + widen (s.reg x))).advance

/-- `Fx29` (rule R183). -/
def execLdFVx (x : Nibble) (s : State) : StepResult := .next (s.setI (glyphAddress (s.reg x))).advance

/-- `Fx33` (rule R185). -/
def execLdBVx (x : Nibble) (s : State) : StepResult :=
  withData s 3 (s.storeBytes s.i.toNat (digits (s.reg x))).advance

/-- `Fx55`: `x` is the number of the last register stored (rule R186). -/
def execLdMemVx (x : Nibble) (s : State) : StepResult :=
  withData s (x.toNat + 1) (s.storeBytes s.i.toNat (s.regsUpTo x)).advance

/-- `Fx65`: `x` is the number of the last register loaded (rule R187). -/
def execLdVxMem (x : Nibble) (s : State) : StepResult :=
  withData s (x.toNat + 1) (s.loadRegs (s.dataBytes (x.toNat + 1))).advance

end Sys2Proof.Machine
end

