-- ==== Sys2Proof/Machine/Skip.lean ====
section
/-! DEFINITION. The conditional skips: 3xkk, 4xkk, 5xy0, 9xy0, Ex9E, ExA1 (41_skip.md). -/

namespace Sys2Proof.Machine

/-- `3xkk` (rule R131). -/
def execSeVxKk (x : Nibble) (kk : Byte) (s : State) : StepResult := .next (s.skipIf (s.reg x == kk))

/-- `4xkk` (rule R132). -/
def execSneVxKk (x : Nibble) (kk : Byte) (s : State) : StepResult := .next (s.skipIf (s.reg x != kk))

/-- `5xy0` (rule R133). -/
def execSeVxVy (x y : Nibble) (s : State) : StepResult := .next (s.skipIf (s.reg x == s.reg y))

/-- `9xy0` (rule R134). -/
def execSneVxVy (x y : Nibble) (s : State) : StepResult := .next (s.skipIf (s.reg x != s.reg y))

/-- `Ex9E`: the key number is the register's value (rule R135). -/
def execSkp (x : Nibble) (s : State) : StepResult := withKey s x (s.skipIf (keyDown s.keys (s.reg x).toNat))

/-- `ExA1` (rule R136). -/
def execSknp (x : Nibble) (s : State) : StepResult := withKey s x (s.skipIf (!keyDown s.keys (s.reg x).toNat))

end Sys2Proof.Machine
end

