-- ==== Sys2Proof/Machine/TimersKeys.lean ====
section
/-! DEFINITION. Timer access and the key wait: Fx07, Fx0A, Fx15, Fx18 (45_timers_keys.md). -/

namespace Sys2Proof.Machine

/-- `Fx07` (rule R221). -/
def execLdVxDt (x : Nibble) (s : State) : StepResult := .next (s.setReg x s.dt).advance

/-- `Fx0A`: with no key pressed the step commits with no write at all; otherwise the least pressed key is stored
(rules R44, R222). -/
def execLdVxK (x : Nibble) (s : State) : StepResult :=
  match leastKey s.keys with
  | none => .next s
  | some k => .next (s.setReg x (BitVec.ofNat 8 k)).advance

/-- `Fx15` (rule R223). -/
def execLdDtVx (x : Nibble) (s : State) : StepResult := .next (s.setDt (s.reg x)).advance

/-- `Fx18` (rule R224). -/
def execLdStVx (x : Nibble) (s : State) : StepResult := .next (s.setSt (s.reg x)).advance

end Sys2Proof.Machine
end

