-- ==== Sys2Proof/Machine/Step.lean ====
section
/-! DEFINITION. One `step` event (rule R42): FETCH, DECODE, EXECUTE, and COMMIT or ABORT. -/

namespace Sys2Proof.Machine

/-- The step of rule R42; its random byte, which `Cxkk` alone reads, is the free value of log entry 1. -/
def step (s : State) : Host.Outcome State Fault Refusal :=
  match fetchWord s with
  | .error e => raise e
  | .ok op =>
    match decodeWord op with
    | none => raise (.unknownOpcode op s.pc)
    | some i => exec i s

/-- `s` with the word of a table row stored where `step` fetches next. -/
def State.withFetchWord (s : State) (nbits w : Nat) : State := s.placeWord (tableWord nbits w)

end Sys2Proof.Machine
end

