-- ==== Sys2Proof/Machine/Events.lean ====
section
/-! DEFINITION. The events of the block's interface (rules R40, R41): `reset`, `load`, `keys`, `tick`, `step`, and the two
read ports. An event is atomic; a schedule is any list of events, in the host's order. The parameters
that the spec leaves open, FONT and the sprite bit order, are an argument of every event (rules R8, R206, R283). -/

namespace Sys2Proof.Machine

/-- The state after a reset with a FONT and an entry point (rules R280 to R283); a run starts here (rule R284). With the
defaults of both it is `State.reset`. -/
def State.resetWith (font : Font) (entry : Word) : State :=
  { State.reset with pc := entry, mem := Memory.writeBytes [] 0 font.toList }

/-- The `reset(entry)` event (rule R280). The model's own draw count goes on, so that no random byte comes twice
(log entry 1). -/
def State.resetEvent (s : State) (font : Font) (entry : Word) : State :=
  { State.resetWith font entry with draws := s.draws }

/-- The `load(bytes, offset)` event (rule R60). -/
def State.load (s : State) (bytes : List Byte) (offset : Nat) : Except Fault State :=
  if Config.memSize < offset + bytes.length then .error (.outOfBounds .load (offset + bytes.length))
  else .ok (s.storeBytes offset bytes)

/-- One tick of a timer: down by 1 with a floor at 0 (rule R260). -/
def tickDown (b : Byte) : Byte := if b = 0 then 0 else b - 1

/-- The `tick` event: both timers take part (rule R260). -/
def State.tick (s : State) : State := (s.setDt (tickDown s.dt)).setSt (tickDown s.st)

/-- EXECUTE under the machine's parameters and with the random byte that the `step` event supplies: `Cxkk` alone reads the byte
(rule R267), and `Dxyn` alone the bit order (rule R206). -/
def execWith (p : Params) (rnd : Byte) (i : Instr) (s : State) : StepResult :=
  match i with
  | .drw x y n => execDrwIn p.spriteMsbFirst x y n s
  | .rndVxKk x kk => .next (rndState rnd x kk s)
  | _ => exec i s

/-- The `step(rnd)` event (rules R41, R42). `step` is this event with the default parameters and the free value of log
entry 1. -/
def stepWith (p : Params) (rnd : Byte) (s : State) : StepResult :=
  match fetchWord s with
  | .error e => raise e
  | .ok op =>
    match decodeWord op with
    | none => raise (.unknownOpcode op s.pc)
    | some i => execWith p rnd i s

/-- The events (rule R41). -/
inductive Event where
  | reset (entry : Word)
  | load (bytes : List Byte) (offset : Nat)
  | keys (k : BitVec 16)
  | tick
  | step (rnd : Byte)
  | readFramebuffer
  | readSound
  deriving DecidableEq, Repr

/-- What an event answers (rules R41, R241, R268). `refused` would be a step without a meaning; there is none. -/
inductive Reply where
  | none
  | ok
  | error (e : Fault)
  | pixels (fb : Frame)
  | sound (st : Byte)
  | refused (r : Refusal)
  deriving DecidableEq, Repr

/-- The result code of a `step` or `load` (rule R241). -/
def Reply.code : Reply → Option Nat
  | .ok => some 0
  | .error e => some e.code
  | .none | .pixels _ | .sound _ | .refused _ => Option.none

/-- The reply to a step and the state it leaves: an error leaves the state as it was (rule R245). -/
def settle (s : State) (r : StepResult) : Reply × State :=
  match r with
  | .next t => (.ok, t)
  | .fault e => (.error e, s)
  | .refused e => (.refused e, s)

/-- One event of a machine with the parameters `p`: its reply, and the state after it (rule R41). -/
def applyEvent (p : Params) (e : Event) (s : State) : Reply × State :=
  match e with
  | .reset entry => (.none, s.resetEvent p.font entry)
  | .load bytes offset =>
    match s.load bytes offset with
    | .ok t => (.ok, t)
    | .error f => (.error f, s)
  | .keys k => (.none, s.setKeys k)
  | .tick => (.none, s.tick)
  | .step rnd => settle s (stepWith p rnd s)
  | .readFramebuffer => (.pixels s.fb, s)
  | .readSound => (.sound s.st, s)

/-- A schedule of events, one after another (rule R40): the replies in order, and the state after the last. -/
def runEvents (p : Params) (events : List Event) (s : State) : List Reply × State :=
  match events with
  | [] => ([], s)
  | e :: rest =>
    let one := applyEvent p e s
    let more := runEvents p rest one.2
    (one.1 :: more.1, more.2)

/-- The host's order to run a program: `reset(entry)`, then `load` (rule R290). -/
def boot (entry : Word) (image : List Byte) (offset : Nat) : List Event := [.reset entry, .load image offset]

/-- Event requests that a realisation samples at one instant (rule R45). -/
structure Requests where
  reset : Option Word
  load : Option (List Byte × Nat)
  keys : Option (BitVec 16)
  tick : Bool
  step : Option Byte
  deriving DecidableEq, Repr

/-- The fixed order they are served in: `reset`, `load`, `keys`, `tick`, `step` (rule R45). -/
def Requests.schedule (r : Requests) : List Event :=
  (r.reset.map Event.reset).toList ++ (r.load.map (fun l => Event.load l.1 l.2)).toList ++
  (r.keys.map Event.keys).toList ++ (if r.tick then [Event.tick] else []) ++ (r.step.map Event.step).toList

end Sys2Proof.Machine
end

