-- ==== Sys2Proof/Safety.lean ====
section
/-! DEFINITION. What claims call a safe run: the named conditions of rule R272, and the invariants of the machine. -/

namespace Sys2Proof.Machine

/-- Faulted: a step from the state returns an error (rule R272). -/
def State.Faulted (s : State) : Prop := ∃ e, step s = .fault e

/-- Stopped: the word at `PC` is `1nnn` with `nnn = PC` (rule R272). -/
def State.Stopped (s : State) : Prop := ∃ nnn : Addr12, fetchWord s = .ok (0x1#4 ++ nnn) ∧ s.pc = nnn.setWidth 16

/-- Waiting: the word at `PC` is `Fx0A` and no key is pressed (rules R222, R272). -/
def State.Waiting (s : State) : Prop := (∃ x : Nibble, fetchWord s = .ok (0xF#4 ++ x ++ 0x0A#8)) ∧ s.keys = 0

/-- Safe: a step from the state commits. -/
def State.Safe (s : State) : Prop := ∃ t, step s = .next t

/-- Memory is in its canonical form. -/
def State.MemoryCanonical (s : State) : Prop := Memory.wf s.mem

/-- What rule R29 says every return address is: at most 0x1000. -/
def State.ReturnsBounded (s : State) : Prop := ∀ k : Fin 16, s.stack[k].toNat ≤ 0x1000

/-- What rule R29 says of `PC` once a step has committed: at most 0x10FE, so that no sum on it passes 16 bits. -/
def State.PcBounded (s : State) : Prop := s.pc.toNat ≤ 0x10FE

end Sys2Proof.Machine
end

