-- ==== Sys2Proof/Certificates/Slice0/Obligations.lean ====
section
/-! DEFINITION. The statements for the provers, and the words they are written in. A statement says what an instruction
answers, the values it leaves, and its frame: what it leaves unchanged. -/

namespace Sys2Proof.Claims

open Sys2Proof.Machine

/-! ## Words of the statements -/

/-- What an event or instruction may change besides `PC`: registers, `I`, the stack with `SP`, the timers, `keys`, the framebuffer,
and the `len` bytes of memory from `base` on. -/
structure MayChange where
  regs : List Nibble := []
  i : Bool := false
  stack : Bool := false
  dt : Bool := false
  st : Bool := false
  keys : Bool := false
  fb : Bool := false
  base : Nat := 0
  len : Nat := 0

/-- Everything but `PC` and what `m` names is in `t` as in `s`: every register, `I`, `SP` and every slot, both timers, the keys,
every framebuffer cell, every byte of memory. -/
def Unchanged (m : MayChange) (s t : State) : Prop :=
  (∀ r, r ∉ m.regs → t.reg r = s.reg r) ∧
  (m.i = false → t.i = s.i) ∧
  (m.stack = false → t.sp = s.sp ∧ t.stack = s.stack) ∧
  (m.dt = false → t.dt = s.dt) ∧
  (m.st = false → t.st = s.st) ∧
  (m.keys = false → t.keys = s.keys) ∧
  (m.fb = false → ∀ j, t.cell j = s.cell j) ∧
  (∀ a, a < m.base ∨ m.base + m.len ≤ a → t.readByte a = s.readByte a)

/-- `PC <- PC + k`, from every `PC` that an instruction can be fetched at (rules R29, R80). -/
def Advances (k : Nat) (s t : State) : Prop := s.pc.toNat ≤ 0xFFE → t.pc.toNat = s.pc.toNat + k

/-- The instruction commits; what it leaves unchanged; and what holds of the state it answers. -/
def Completes (i : Instr) (s : State) (m : MayChange) (post : State → Prop) : Prop :=
  ∃ t, exec i s = .next t ∧ Unchanged m s t ∧ post t

/-- The instruction commits, from `s` to `t`: in `exec`, or in a step event under some parameters and some random byte. -/
def Commits (i : Instr) (s t : State) : Prop := exec i s = .next t ∨ ∃ p rnd, execWith p rnd i s = .next t

/-- A step commits, from `s` to `t`: the model's `step`, or a step event under some parameters and some random byte. -/
def StepCommits (s t : State) : Prop := step s = .next t ∨ ∃ p rnd, stepWith p rnd s = .next t

/-- The flag `VF` holds: 1 where `p`, else 0. -/
def FlagIs (p : Prop) (t : State) : Prop := (p → t.reg 15 = 1) ∧ (¬p → t.reg 15 = 0)

/-- Registers `V[0]` to `V[x]`. -/
def regsTo (x : Nibble) : List Nibble := (List.range (x.toNat + 1)).map (BitVec.ofNat 4)

/-- Cell `j` lies under a 1 bit of the sprite that `Dxyn` draws from `s`: row `row` of it is the byte at `I + row`, whose bit 7
is the leftmost of its eight columns, or else its bit 0, and each coordinate wraps on its own (rules R202, R204, R206). -/
def Covered (msbFirst : Bool) (x y n : Nibble) (s : State) (j : Nat) : Prop :=
  ∃ row < n.toNat, ∃ col < 8,
    (s.readByte (s.i.toNat + row)).getLsbD (if msbFirst = true then 7 - col else col) = true ∧
    j = ((s.reg x).toNat + col) % 64 + 64 * (((s.reg y).toNat + row) % 32)

/-- Every byte of the sprite that `Dxyn` draws from `s` exists (rule R54). -/
def SpriteFits (n : Nibble) (s : State) : Prop := n.toNat = 0 ∨ s.i.toNat + n.toNat - 1 < 4096

/-- What `Dxyn` has done to the framebuffer, `VF` and `PC` in `t`: the covered cells turned over and no others, and the flag of a
collision (rule R202). -/
def Drawn (msbFirst : Bool) (x y n : Nibble) (s t : State) : Prop :=
  (∀ j < 2048, (Covered msbFirst x y n s j → t.cell j = !s.cell j) ∧ (¬Covered msbFirst x y n s j → t.cell j = s.cell j)) ∧
  FlagIs (∃ j < 2048, Covered msbFirst x y n s j ∧ s.cell j = true) t ∧ Advances 2 s t

/-- `w` is the one word that decodes to `i` (rules R10, R85). -/
def EncodedAs (i : Instr) (w : Nat) : Prop := ∀ op : Word, decodeWord op = some i ↔ op.toNat = w

/-- The fields of an instruction (rule R84). -/
def xOf : Instr → Option Nibble
  | .seVxKk x _ | .sneVxKk x _ | .seVxVy x _ | .ldVxKk x _ | .addVxKk x _ | .ldVxVy x _ | .orVxVy x _ | .andVxVy x _
  | .xorVxVy x _ | .addVxVy x _ | .subVxVy x _ | .shrVx x _ | .subnVxVy x _ | .shlVx x _ | .sneVxVy x _ | .rndVxKk x _
  | .drw x _ _ | .skp x | .sknp x | .ldVxDt x | .ldVxK x | .ldDtVx x | .ldStVx x | .addIVx x | .ldFVx x | .ldBVx x
  | .ldMemVx x | .ldVxMem x => some x
  | .cls | .ret | .sys _ | .jp _ | .call _ | .ldINnn _ | .jpV0 _ => none

def yOf : Instr → Option Nibble
  | .seVxVy _ y | .ldVxVy _ y | .orVxVy _ y | .andVxVy _ y | .xorVxVy _ y | .addVxVy _ y | .subVxVy _ y | .shrVx _ y
  | .subnVxVy _ y | .shlVx _ y | .sneVxVy _ y | .drw _ y _ => some y
  | _ => none

def nOf : Instr → Option Nibble
  | .drw _ _ n => some n
  | _ => none

def kkOf : Instr → Option Byte
  | .seVxKk _ kk | .sneVxKk _ kk | .ldVxKk _ kk | .addVxKk _ kk | .rndVxKk _ kk => some kk
  | _ => none

def nnnOf : Instr → Option Addr12
  | .sys nnn | .jp nnn | .call nnn | .ldINnn nnn | .jpV0 nnn => some nnn
  | _ => none

/-- The error of its own that an instruction raises from `s` (rule R242). -/
def OwnError (i : Instr) (s : State) (e : Fault) : Prop :=
  match i with
  | .ret => s.sp.val = 0 ∧ e = .stackUnderflow s.pc
  | .call _ => s.sp.val = 16 ∧ e = .stackOverflow s.pc
  | .drw _ _ n => 0 < n.toNat ∧ 4096 ≤ s.i.toNat + n.toNat - 1 ∧ e = .outOfBounds .data (max s.i.toNat 4096)
  | .ldBVx _ => 4096 ≤ s.i.toNat + 2 ∧ e = .outOfBounds .data (max s.i.toNat 4096)
  | .ldMemVx x => 4096 ≤ s.i.toNat + x.toNat ∧ e = .outOfBounds .data (max s.i.toNat 4096)
  | .ldVxMem x => 4096 ≤ s.i.toNat + x.toNat ∧ e = .outOfBounds .data (max s.i.toNat 4096)
  | .skp x => 15 < (s.reg x).toNat ∧ e = .outOfBounds .key (s.reg x).toNat
  | .sknp x => 15 < (s.reg x).toNat ∧ e = .outOfBounds .key (s.reg x).toNat
  | _ => False

/-- What each instruction may change besides `PC` (rules R23 to R25, R30 to R36). -/
def writes (i : Instr) (s : State) : MayChange :=
  match i with
  | .cls => { fb := true }
  | .ret | .call _ => { stack := true }
  | .ldVxKk x _ | .addVxKk x _ | .ldVxVy x _ | .orVxVy x _ | .andVxVy x _ | .xorVxVy x _ | .rndVxKk x _ | .ldVxDt x
  | .ldVxK x => { regs := [x] }
  | .addVxVy x _ | .subVxVy x _ | .shrVx x _ | .subnVxVy x _ | .shlVx x _ => { regs := [x, 15] }
  | .drw _ _ _ => { regs := [15], fb := true }
  | .ldINnn _ | .addIVx _ | .ldFVx _ => { i := true }
  | .ldDtVx _ => { dt := true }
  | .ldStVx _ => { st := true }
  | .ldBVx _ => { base := s.i.toNat, len := 3 }
  | .ldMemVx x => { base := s.i.toNat, len := x.toNat + 1 }
  | .ldVxMem x => { regs := regsTo x }
  | .sys _ | .jp _ | .jpV0 _ | .seVxKk _ _ | .sneVxKk _ _ | .seVxVy _ _ | .sneVxVy _ _ | .skp _ | .sknp _ => {}

/-- How a committed step writes `PC` (rules R27, R90). -/
def PcWritten (i : Instr) (s t : State) : Prop :=
  match i with
  | .jp nnn | .call nnn => t.pc.toNat = nnn.toNat
  | .jpV0 nnn => t.pc.toNat = nnn.toNat + (s.reg 0).toNat
  | .ret => ∃ k : Fin 16, s.sp.val = k.val + 1 ∧ t.pc = s.stack[k]
  | .seVxKk x kk => t.pc.toNat = s.pc.toNat + if s.reg x = kk then 4 else 2
  | .sneVxKk x kk => t.pc.toNat = s.pc.toNat + if s.reg x ≠ kk then 4 else 2
  | .seVxVy x y => t.pc.toNat = s.pc.toNat + if s.reg x = s.reg y then 4 else 2
  | .sneVxVy x y => t.pc.toNat = s.pc.toNat + if s.reg x ≠ s.reg y then 4 else 2
  | .skp x => t.pc.toNat = s.pc.toNat + if s.keys.getLsbD (s.reg x).toNat = true then 4 else 2
  | .sknp x => t.pc.toNat = s.pc.toNat + if s.keys.getLsbD (s.reg x).toNat = false then 4 else 2
  | .ldVxK _ => t.pc.toNat = s.pc.toNat + if s.keys = 0 then 0 else 2
  | _ => t.pc.toNat = s.pc.toNat + 2

/-- The state that `reset(entry)` leaves with a FONT (rule R280). -/
def AsReset (font : Font) (entry : Word) (t : State) : Prop :=
  (∀ r, t.reg r = 0) ∧ t.i = 0 ∧ t.pc = entry ∧ (∀ k : Fin 16, t.stack[k] = 0) ∧ t.sp.val = 0 ∧
  t.dt = 0 ∧ t.st = 0 ∧ (∀ j < 2048, t.cell j = false) ∧ (∀ k < 16, t.keys.getLsbD k = false) ∧
  (∀ (a : Nat) (h : a < 80), t.readByte a = font[a]) ∧ (∀ a, 80 ≤ a → a < 4096 → t.readByte a = 0)

/-- In no step of the schedule does an instruction of `bad` run, and no event of it is a reset. -/
def Avoids (p : Params) (bad : Instr → Prop) (events : List Event) (s : State) : Prop :=
  match events with
  | [] => True
  | e :: rest =>
    (∀ w, e ≠ .reset w) ∧
    (∀ rnd, e = .step rnd → ∀ op i, fetchWord s = .ok op → decodeWord op = some i → ¬bad i) ∧
    Avoids p bad rest (applyEvent p e s).2

/-- The byte at `a` of the memory of `s` with `bytes` laid over it from `base` on. -/
def overlaid (s : State) (base : Nat) (bytes : List Byte) (a : Nat) : Byte :=
  if a < base then s.readByte a else bytes[a - base]?.getD (s.readByte a)

/-- The next fetch from `t`, wherever its `PC` stands that a fetch succeeds at, reads the bytes of `byteAt` (rules R55, R80). -/
def FetchesFrom (t : State) (byteAt : Nat → Byte) : Prop :=
  t.pc.toNat + 1 < 4096 → ∃ op, fetchWord t = .ok op ∧
    op.toNat = (byteAt t.pc.toNat).toNat * 256 + (byteAt (t.pc.toNat + 1)).toNat

/-- The place of an event in the fixed order of rule R45; the read ports are not sampled. -/
def servingRank : Event → Nat
  | .reset _ => 0
  | .load _ _ => 1
  | .keys _ => 2
  | .tick => 3
  | .step _ => 4
  | .readFramebuffer | .readSound => 5

end Sys2Proof.Claims

open Sys2Proof Sys2Proof.Machine Sys2Proof.Claims

/-! ## Decoding and encoding -/

/-- Decoding what the encoder writes gives the instruction back, with every operand at every value, as a word and at the head of
any bytes (30_encoding.md sections 2 to 4). -/
def Obligations.DecodeOfEncodeIsTheInstruction : Prop :=
  ∀ i : Instr, i.wf = true →
    decodeWord (encode i) = some i ∧ ∀ rest, decode (encodeBytes i ++ rest) = .ok (i, rest)

/-- A word that decodes is the word of the well-formed instruction it decodes to, so no two words of different bits decode
alike and no bit of a word is dropped (30_encoding.md sections 2 to 5). -/
def Obligations.EncodeOfDecodeIsTheWord : Prop :=
  ∀ (op : Word) (i : Instr), decodeWord op = some i → i.wf = true ∧ encode i = op

/-- Rule R85: the decoder finds the row whose `(op and mask) = match`, rows being disjoint but for 00E0 and 00EE against 0nnn,
and a step whose word matches no row raises UnknownOpcode. -/
def Obligations.DecoderFindsTheRowOfTheOpcodeMap : Prop :=
  (∀ op : Word, (decodeWord op).map Instr.rowNumber =
    (opcodeMap.find? (fun r => r.matches op)).map OpcodeRow.number) ∧
  (∀ op : Word, ∀ r ∈ opcodeMap, ∀ q ∈ opcodeMap, r.number < q.number → r.matches op = true → q.matches op = true →
    r.number ≤ 2 ∧ q.number = 3) ∧
  opcodeMap.length = 35 ∧
  ∀ (s : State) (op : Word), fetchWord s = .ok op → (∀ r ∈ opcodeMap, r.matches op = false) →
    step s = .fault (.unknownOpcode op s.pc)

/-- Rule R86: in major opcode 0 two exact words are 00E0 and 00EE and every other word is 0nnn, a no-op. -/
def Obligations.MajorOpcodeZeroHasNoUnknownWord : Prop :=
  decodeWord 0x00E0 = some .cls ∧ decodeWord 0x00EE = some .ret ∧
  ∀ op : Word, op.toNat < 0x1000 → op ≠ 0x00E0 → op ≠ 0x00EE →
    ∃ nnn : Addr12, nnn.toNat = op.toNat ∧ decodeWord op = some (.sys nnn) ∧
      ∀ s, Completes (.sys nnn) s {} (Advances 2 s)

/-- The unknown words are those of the table of 30_encoding.md section 5, by the spec's decision D6. -/
def Obligations.UnknownWordsAreTheListedOnes : Prop :=
  ∀ op : Word, decodeWord op = none ↔
    (op.toNat / 4096 = 5 ∧ op.toNat % 16 ≠ 0) ∨
    (op.toNat / 4096 = 8 ∧ (8 ≤ op.toNat % 16 ∧ op.toNat % 16 ≤ 0xD ∨ op.toNat % 16 = 0xF)) ∨
    (op.toNat / 4096 = 9 ∧ op.toNat % 16 ≠ 0) ∨
    (op.toNat / 4096 = 0xE ∧ op.toNat % 256 ≠ 0x9E ∧ op.toNat % 256 ≠ 0xA1) ∨
    (op.toNat / 4096 = 0xF ∧ op.toNat % 256 ∉ [0x07, 0x0A, 0x15, 0x18, 0x1E, 0x29, 0x33, 0x55, 0x65])

/-- Every field of a decoded instruction is the unsigned number of its bits in the word (30_encoding.md section 3). -/
def Obligations.FieldsComeStraightFromTheWord : Prop :=
  ∀ (op : Word) (i : Instr), decodeWord op = some i →
    (∀ x, xOf i = some x → x.toNat = op.toNat / 256 % 16) ∧
    (∀ y, yOf i = some y → y.toNat = op.toNat / 16 % 16) ∧
    (∀ n, nOf i = some n → n.toNat = op.toNat % 16) ∧
    (∀ kk, kkOf i = some kk → kk.toNat = op.toNat % 256) ∧
    (∀ nnn, nnnOf i = some nnn → nnn.toNat = op.toNat % 4096)

/-- Words of the spec's test vectors, one or more for each family, decode to the instructions they stand for. -/
def Obligations.WordsOfTheTestVectorsDecode : Prop :=
  decodeTableWord 16 0x220A = some (.call 0x20A) ∧ decodeTableWord 16 0xB300 = some (.jpV0 0x300) ∧
  decodeTableWord 16 0x00EE = some .ret ∧ decodeTableWord 16 0x4211 = some (.sneVxKk 2 0x11) ∧
  decodeTableWord 16 0x5340 = some (.seVxVy 3 4) ∧ decodeTableWord 16 0xE59E = some (.skp 5) ∧
  decodeTableWord 16 0x6005 = some (.ldVxKk 0 0x05) ∧ decodeTableWord 16 0x8127 = some (.subnVxVy 1 2) ∧
  decodeTableWord 16 0xA2F0 = some (.ldINnn 0x2F0) ∧ decodeTableWord 16 0xF255 = some (.ldMemVx 2) ∧
  decodeTableWord 16 0xD012 = some (.drw 0 1 2) ∧ decodeTableWord 16 0xF50A = some (.ldVxK 5) ∧
  decodeTableWord 16 0x5001 = none ∧ decodeTableWord 16 0x800F = none

/-! ## The step -/

/-- Rules R42 and R80: a step fetches the word at `PC`, high byte first, or fails with OutOfBounds(fetch, PC) where a byte of it does not
exist, whatever the parity of `PC`; then it fails with UnknownOpcode, or runs the instruction the word decodes to, and adds
nothing to it. -/
def Obligations.StepRunsTheDecodedInstruction : Prop :=
  ∀ s : State,
    (4096 ≤ s.pc.toNat + 1 → step s = .fault (.outOfBounds .fetch s.pc.toNat)) ∧
    (s.pc.toNat + 1 < 4096 → ∀ op : Word,
      op.toNat = (s.readByte s.pc.toNat).toNat * 256 + (s.readByte (s.pc.toNat + 1)).toNat →
        (decodeWord op = none → step s = .fault (.unknownOpcode op s.pc)) ∧
        ∀ i, decodeWord op = some i → i.wf = true ∧ step s = exec i s)

/-- Which error of its own each instruction raises, and when: exactly those of 60_exceptions.md section 1 (the data and key checks
are the spec's decisions D15 and D16), whatever the parameters and the random byte; and no instruction is refused. -/
def Obligations.ErrorsAreExactlyTheListedOnes : Prop :=
  ∀ (i : Instr) (s : State), (∀ e, exec i s = .fault e ↔ OwnError i s e) ∧ (∀ r, exec i s ≠ .refused r) ∧
    ∀ (p : Params) (rnd : Byte),
      (∀ e, execWith p rnd i s = .fault e ↔ OwnError i s e) ∧ ∀ r, execWith p rnd i s ≠ .refused r

/-- Rules R27 and R90: a committed step writes `PC` in exactly the way its instruction gives; an aborted one leaves it. -/
def Obligations.PcIsWrittenTheOneWayOfItsInstruction : Prop :=
  (∀ s t : State, StepCommits s t →
    ∃ op i, fetchWord s = .ok op ∧ decodeWord op = some i ∧ PcWritten i s t) ∧
  ∀ (p : Params) (s : State) (rnd : Byte) (e : Fault), (applyEvent p (.step rnd) s).1 = .error e →
    (applyEvent p (.step rnd) s).2.pc = s.pc

/-- The `step(rnd)` event: an error of the fetch or the decode is its reply and changes nothing; else it runs the instruction the
word decodes to with `rnd` as the random byte and by the machine's sprite bit order, a state that the instruction answers is the state it leaves, with `Ok`, and an
error is its reply and changes nothing; `Cxkk` writes `rnd` masked by `kk` (10_state.md section 11, decisions D1, D18). Every
instruction but `Cxkk` does what it does in `exec`: `Dxyn` where the order is bit 7 leftmost, which is the default that `exec` draws
by (44_display.md, decision D19; log entry 4, PRESUMED), and all others in either order. -/
def Obligations.StepEventRunsTheDecodedInstruction : Prop :=
  ∀ (p : Params) (rnd : Byte) (s : State),
    (4096 ≤ s.pc.toNat + 1 → applyEvent p (.step rnd) s = (.error (.outOfBounds .fetch s.pc.toNat), s)) ∧
    ∀ op, fetchWord s = .ok op →
      (decodeWord op = none → applyEvent p (.step rnd) s = (.error (.unknownOpcode op s.pc), s)) ∧
      (∀ i, decodeWord op = some i →
        stepWith p rnd s = execWith p rnd i s ∧
        (∀ t, execWith p rnd i s = .next t → applyEvent p (.step rnd) s = (.ok, t)) ∧
        (∀ e, execWith p rnd i s = .fault e → applyEvent p (.step rnd) s = (.error e, s)) ∧
        ((∀ x kk, i ≠ .rndVxKk x kk) → p.spriteMsbFirst = true ∨ (∀ x y n, i ≠ .drw x y n) →
          execWith p rnd i s = exec i s)) ∧
      ∀ x kk, decodeWord op = some (.rndVxKk x kk) →
        ∃ t, applyEvent p (.step rnd) s = (.ok, t) ∧ t.reg x = rnd &&& kk ∧ Unchanged { regs := [x] } s t ∧
          t.pc.toNat = s.pc.toNat + 2

/-- Every piece of state changes only by the instructions that write it: the flag only by the six flag instructions and by a
destination, `I` only by Annn, Fx1E, Fx29, the stack only by 2nnn and 00EE, `DT` only by Fx15, `ST` only by Fx18, `keys` never, the
framebuffer only by 00E0 and Dxyn, memory only by Fx33 and Fx55 in the bytes they store (10_state.md sections 1 to 9). -/
def Obligations.StateChangesOnlyByItsWriters : Prop :=
  ∀ (i : Instr) (s t : State), Commits i s t → Unchanged (writes i s) s t

/-- A flag instruction leaves 0 or 1 in `VF`, never another value (10_state.md section 2). -/
def Obligations.FlagInstructionsLeaveZeroOrOne : Prop :=
  ∀ (s t : State) (x y n : Nibble) (i : Instr),
    i ∈ [.addVxVy x y, .subVxVy x y, .shrVx x y, .subnVxVy x y, .shlVx x y, .drw x y n] →
    Commits i s t → t.reg 15 = 0 ∨ t.reg 15 = 1

/-- `PC` and the return addresses stay even as long as no jump, call or jump with offset goes to an odd address: the one way
`PC` can turn odd (10_state.md section 4, decision D10). -/
def Obligations.PcStaysEvenUnlessSentToAnOddAddress : Prop :=
  ∀ s t : State, s.pc.toNat % 2 = 0 → (∀ k : Fin 16, s.stack[k].toNat % 2 = 0) → StepCommits s t →
    (∀ op i, fetchWord s = .ok op → decodeWord op = some i →
      (∀ nnn, i = .jp nnn ∨ i = .call nnn → nnn.toNat % 2 = 0) ∧
      (∀ nnn, i = .jpV0 nnn → (nnn.toNat + (s.reg 0).toNat) % 2 = 0)) →
    t.pc.toNat % 2 = 0 ∧ ∀ k : Fin 16, t.stack[k].toNat % 2 = 0

/-! ## Reset, boot and the other events -/

/-- The state of `State.reset`: everything zero but `PC`, 0x0200, and the font (70_reset_and_hazards.md section 1). The timers are 0 by
the spec's decision D4; the font bytes are those of log entry 2, PRESUMED. -/
def Obligations.ResetStateIsTheStatedOne : Prop := AsReset Default.font 0x0200 State.reset

/-- A reset event sets every piece of state whatever it held, for every entry point and every FONT, and so does the reset that a run
starts at (70_reset_and_hazards.md section 1, decisions D3 to D5). That the memory it leaves is in canonical form is no rule of
the spec: the form is the model's choice (log entry 11). -/
def Obligations.ResetEventSetsEveryPieceOfState : Prop :=
  ∀ (p : Params) (entry : Word),
    AsReset p.font entry (State.resetWith p.font entry) ∧ (State.resetWith p.font entry).MemoryCanonical ∧
    ∀ s : State, ∃ t, applyEvent p (.reset entry) s = (.none, t) ∧ AsReset p.font entry t ∧ t.MemoryCanonical

/-- The state after reset meets every invariant stated below: the two bounds of 10_state.md section 4, and the canonical form of
memory, which is the model's choice (log entry 11). -/
def Obligations.ResetMeetsTheInvariants : Prop :=
  State.reset.MemoryCanonical ∧ State.reset.ReturnsBounded ∧ State.reset.PcBounded

/-- Every step keeps memory in its canonical form. The form (addresses strictly rising, no cell listed at its reset value) is the
model's choice (log entry 11); that only addresses below 4096 stand in it is 20_memory.md sections 1 and 2. -/
def Obligations.StepKeepsMemoryCanonical : Prop :=
  ∀ s t : State, s.MemoryCanonical → step s = .next t → t.MemoryCanonical

/-- Return addresses stay at or below 0x1000, and every committed step leaves `PC` at or below 0x10FE, so that no sum on `PC` ever
passes 16 bits (10_state.md section 4). -/
def Obligations.StepKeepsReturnAddressesAndPcBounded : Prop :=
  ∀ s t : State, s.ReturnsBounded → step s = .next t → t.ReturnsBounded ∧ t.PcBounded

/-- Every schedule of the host's events keeps the return addresses bounded (10_state.md sections 4 and 11), and memory in its
canonical form, which is the model's choice (log entry 11). -/
def Obligations.EveryScheduleKeepsTheInvariants : Prop :=
  ∀ (p : Params) (events : List Event) (s : State), s.MemoryCanonical → s.ReturnsBounded →
    (runEvents p events s).2.MemoryCanonical ∧ (runEvents p events s).2.ReturnsBounded

/-- Rule R245: an event that answers an error leaves every piece of state as it was. -/
def Obligations.AnErrorChangesNothing : Prop :=
  ∀ (p : Params) (e : Event) (s : State) (err : Fault),
    (applyEvent p e s).1 = .error err → (applyEvent p e s).2 = s

/-- After an error the next step, whatever its random byte, raises the same error and again changes nothing
(60_exceptions.md section 2, decision D22). -/
def Obligations.AFailedStepFailsTheSameWayAgain : Prop :=
  ∀ (p : Params) (s : State) (rnd rnd' : Byte) (err : Fault), (applyEvent p (.step rnd) s).1 = .error err →
    applyEvent p (.step rnd') (applyEvent p (.step rnd) s).2 = (.error err, s)

/-- The host's boot order, `reset(entry)` then `load` of an image of at least two bytes at `entry`, makes the image's first two
bytes the word the next step fetches, from whatever state (70_reset_and_hazards.md section 2). -/
def Obligations.BootMakesTheImageTheFirstInstruction : Prop :=
  ∀ (p : Params) (s : State) (entry : Word) (b c : Byte) (rest : List Byte), entry.toNat + (rest.length + 2) ≤ 4096 →
    (runEvents p (boot entry (b :: c :: rest) entry.toNat) s).1 = [.none, .ok] ∧
    ∃ op, fetchWord (runEvents p (boot entry (b :: c :: rest) entry.toNat) s).2 = .ok op ∧
      op.toNat = b.toNat * 256 + c.toNat

/-- Requests sampled at one instant are served in the order `reset`, `load`, `keys`, `tick`, `step`, each once where it is asked
(10_state.md section 11, decision D2). -/
def Obligations.SampledRequestsAreServedInTheFixedOrder : Prop :=
  ∀ r : Requests, (r.schedule.map servingRank).Pairwise (· < ·) ∧
    (∀ w, Event.reset w ∈ r.schedule ↔ r.reset = some w) ∧
    (∀ b o, Event.load b o ∈ r.schedule ↔ r.load = some (b, o)) ∧
    (∀ k, Event.keys k ∈ r.schedule ↔ r.keys = some k) ∧
    (Event.tick ∈ r.schedule ↔ r.tick = true) ∧
    (∀ rnd, Event.step rnd ∈ r.schedule ↔ r.step = some rnd)

/-- `load` writes all its bytes or, where they do not fit, none (20_memory.md section 7, decision D24). -/
def Obligations.LoadWritesAllItsBytesOrNone : Prop :=
  ∀ (p : Params) (s : State) (bytes : List Byte) (offset : Nat),
    (4096 < offset + bytes.length →
      applyEvent p (.load bytes offset) s = (.error (.outOfBounds .load (offset + bytes.length)), s)) ∧
    (offset + bytes.length ≤ 4096 → ∃ t, applyEvent p (.load bytes offset) s = (.ok, t) ∧ t.pc = s.pc ∧
      Unchanged { base := offset, len := bytes.length } s t ∧
      ∀ k b, bytes[k]? = some b → t.readByte (offset + k) = b)

/-- Rule R260: a tick takes 1 from each timer that is not 0, and does nothing else. -/
def Obligations.TickTakesOneFromEachTimer : Prop :=
  ∀ (p : Params) (s : State), ∃ t, applyEvent p .tick s = (.none, t) ∧
    t.dt.toNat = s.dt.toNat - 1 ∧ t.st.toNat = s.st.toNat - 1 ∧ t.pc = s.pc ∧ Unchanged { dt := true, st := true } s t

/-- Over any schedule with no reset, whatever steps and other events it mixes with the ticks: where no step of it runs `Fx15`, `DT`
goes down by the number of ticks, to the floor at 0, and where none runs `Fx18`, so does `ST` (60_exceptions.md section 5). -/
def Obligations.TimersCountTheTicks : Prop :=
  ∀ (p : Params) (events : List Event) (s : State),
    (Avoids p (fun i => ∃ x, i = .ldDtVx x) events s →
      (runEvents p events s).2.dt.toNat = s.dt.toNat - events.count .tick) ∧
    (Avoids p (fun i => ∃ x, i = .ldStVx x) events s →
      (runEvents p events s).2.st.toNat = s.st.toNat - events.count .tick)

/-- The `keys` event replaces all 16 keys and nothing else; the read ports answer the framebuffer and `ST` and change nothing
(60_exceptions.md section 6, decisions D27, D31). -/
def Obligations.KeysAndReadPortsDoOnlyTheirOwn : Prop :=
  ∀ (p : Params) (s : State) (k : BitVec 16),
    (∃ t, applyEvent p (.keys k) s = (.none, t) ∧ t.keys = k ∧ t.pc = s.pc ∧ Unchanged { keys := true } s t) ∧
    (∃ fb, applyEvent p .readFramebuffer s = (.pixels fb, s) ∧ ∀ j < 2048, cellOf fb j = s.cell j) ∧
    applyEvent p .readSound s = (.sound s.st, s)

/-- A jump to itself at `PC` is a step that changes nothing, and so is `Fx0A` while no key is pressed
(60_exceptions.md section 7, 45_timers_keys.md). -/
def Obligations.StoppedAndWaitingStatesStepToThemselves : Prop :=
  ∀ s : State, (s.Stopped → step s = .next s) ∧ (s.Waiting → step s = .next s)

/-! ## Control transfer and the stack -/

/-- Rule R112: `0nnn`, the word 0x0nnn but for 0x00E0 and 0x00EE, only advances `PC`. -/
def Obligations.SysIsANoOp : Prop :=
  ∀ nnn : Addr12, (nnn ≠ 0x0E0 → nnn ≠ 0x0EE → EncodedAs (.sys nnn) nnn.toNat) ∧
    ∀ s, Completes (.sys nnn) s {} (Advances 2 s)

/-- Rule R113: `1nnn` sets `PC` to `nnn`, of any value, and changes no state at all where that is its own address. -/
def Obligations.JumpSetsPc : Prop :=
  ∀ nnn : Addr12, EncodedAs (.jp nnn) (0x1000 + nnn.toNat) ∧
    ∀ s, Completes (.jp nnn) s {} (fun t => t.pc.toNat = nnn.toNat ∧ (s.pc.toNat = nnn.toNat → t = s))

/-- `Bnnn` sets `PC` to `nnn + V[0]`, not masked (40_flow.md, decision D11). -/
def Obligations.JumpWithOffsetAddsV0 : Prop :=
  ∀ (nnn : Addr12) (s : State), Completes (.jpV0 nnn) s {} (fun t => t.pc.toNat = nnn.toNat + (s.reg 0).toNat)

/-- `2nnn` stores the address after the call in slot `SP`, counts it, and sets `PC` to `nnn`; with 16 on the stack it overflows
(40_flow.md, decision D12). -/
def Obligations.CallPushesTheReturnAddress : Prop :=
  ∀ (nnn : Addr12) (s : State),
    (s.sp.val < 16 → Completes (.call nnn) s { stack := true } (fun t =>
      t.pc.toNat = nnn.toNat ∧ t.sp.val = s.sp.val + 1 ∧
      ∀ k : Fin 16, (k.val = s.sp.val → s.pc.toNat ≤ 0xFFE → t.stack[k].toNat = s.pc.toNat + 2) ∧
        (k.val ≠ s.sp.val → t.stack[k] = s.stack[k]))) ∧
    (s.sp.val = 16 → exec (.call nnn) s = .fault (.stackOverflow s.pc))

/-- `00EE` sets `PC` to the newest slot, which keeps its bits; with none on the stack it underflows (40_flow.md, decision D12). -/
def Obligations.ReturnPopsTheNewestAddress : Prop :=
  ∀ s : State,
    (∀ k : Fin 16, s.sp.val = k.val + 1 → Completes .ret s { stack := true } (fun t =>
      t.pc = s.stack[k] ∧ t.sp.val = k.val ∧ t.stack = s.stack)) ∧
    (s.sp.val = 0 → exec .ret s = .fault (.stackUnderflow s.pc))

/-- A call followed by a return comes back to the instruction after the call, with `SP` and every slot but the one above the live
ones as before, and nothing else changed (40_flow.md). -/
def Obligations.CallThenReturnComesBack : Prop :=
  ∀ (nnn : Addr12) (s : State), s.sp.val < 16 → s.pc.toNat ≤ 0xFFE →
    ∃ t u, exec (.call nnn) s = .next t ∧ exec .ret t = .next u ∧
      u.pc.toNat = s.pc.toNat + 2 ∧ u.sp = s.sp ∧ Unchanged { stack := true } s u ∧
      ∀ k : Fin 16, (k.val ≠ s.sp.val → u.stack[k] = s.stack[k]) ∧
        (k.val = s.sp.val → u.stack[k].toNat = s.pc.toNat + 2)

/-! ## Skips -/

/-- Rules R131 and R132: `3xkk` and `4xkk` skip on equality and on difference; of the two with the same fields exactly one skips. -/
def Obligations.LiteralSkipsCompareTheRegister : Prop :=
  ∀ (x : Nibble) (kk : Byte),
    EncodedAs (.seVxKk x kk) (0x3000 + 0x100 * x.toNat + kk.toNat) ∧
    EncodedAs (.sneVxKk x kk) (0x4000 + 0x100 * x.toNat + kk.toNat) ∧
    ∀ s,
      Completes (.seVxKk x kk) s {} (fun t => (s.reg x = kk → Advances 4 s t) ∧ (s.reg x ≠ kk → Advances 2 s t)) ∧
      Completes (.sneVxKk x kk) s {} (fun t => (s.reg x ≠ kk → Advances 4 s t) ∧ (s.reg x = kk → Advances 2 s t))

/-- Rules R133 and R134: `5xy0` and `9xy0` skip on equality and on difference of two registers; with another last nibble the words are
no instructions. -/
def Obligations.RegisterSkipsCompareTheRegisters : Prop :=
  (∀ x y : Nibble,
    EncodedAs (.seVxVy x y) (0x5000 + 0x100 * x.toNat + 0x10 * y.toNat) ∧
    EncodedAs (.sneVxVy x y) (0x9000 + 0x100 * x.toNat + 0x10 * y.toNat) ∧
    ∀ s,
      Completes (.seVxVy x y) s {} (fun t =>
        (s.reg x = s.reg y → Advances 4 s t) ∧ (s.reg x ≠ s.reg y → Advances 2 s t)) ∧
      Completes (.sneVxVy x y) s {} (fun t =>
        (s.reg x ≠ s.reg y → Advances 4 s t) ∧ (s.reg x = s.reg y → Advances 2 s t))) ∧
  ∀ (s : State) (op : Word), fetchWord s = .ok op → op.toNat / 4096 = 5 ∨ op.toNat / 4096 = 9 → op.toNat % 16 ≠ 0 →
    step s = .fault (.unknownOpcode op s.pc)

/-- `Ex9E` and `ExA1` skip on the key whose number the register holds; above 15 they raise OutOfBounds(key)
(41_skip.md, decision D16). -/
def Obligations.KeySkipsReadTheKeyOfTheRegister : Prop :=
  ∀ (x : Nibble) (s : State),
    ((s.reg x).toNat ≤ 15 →
      Completes (.skp x) s {} (fun t =>
        (s.keys.getLsbD (s.reg x).toNat = true → Advances 4 s t) ∧
        (s.keys.getLsbD (s.reg x).toNat = false → Advances 2 s t)) ∧
      Completes (.sknp x) s {} (fun t =>
        (s.keys.getLsbD (s.reg x).toNat = false → Advances 4 s t) ∧
        (s.keys.getLsbD (s.reg x).toNat = true → Advances 2 s t))) ∧
    (15 < (s.reg x).toNat →
      exec (.skp x) s = .fault (.outOfBounds .key (s.reg x).toNat) ∧
      exec (.sknp x) s = .fault (.outOfBounds .key (s.reg x).toNat))

/-! ## Register loads and the ALU -/

/-- Rules R151, R152 and R153: `6xkk`, `7xkk` and `8xy0` write `V[x]` and no flag. -/
def Obligations.LiteralLoadAddAndCopyWriteTheRegister : Prop :=
  ∀ (x y : Nibble) (kk : Byte),
    EncodedAs (.ldVxKk x kk) (0x6000 + 0x100 * x.toNat + kk.toNat) ∧
    EncodedAs (.addVxKk x kk) (0x7000 + 0x100 * x.toNat + kk.toNat) ∧
    EncodedAs (.ldVxVy x y) (0x8000 + 0x100 * x.toNat + 0x10 * y.toNat) ∧
    ∀ s,
      Completes (.ldVxKk x kk) s { regs := [x] } (fun t => t.reg x = kk ∧ Advances 2 s t) ∧
      Completes (.addVxKk x kk) s { regs := [x] } (fun t =>
        (t.reg x).toNat = ((s.reg x).toNat + kk.toNat) % 256 ∧ Advances 2 s t) ∧
      Completes (.ldVxVy x y) s { regs := [x] } (fun t => t.reg x = s.reg y ∧ Advances 2 s t)

/-- `8xy1`, `8xy2`, `8xy3` are OR, AND, XOR bit by bit, and write no flag (42_alu.md, decision D8). -/
def Obligations.LogicWorksBitByBit : Prop :=
  ∀ (x y : Nibble) (s : State),
    Completes (.orVxVy x y) s { regs := [x] } (fun t =>
      (∀ k < 8, (t.reg x).getLsbD k = true ↔ (s.reg x).getLsbD k = true ∨ (s.reg y).getLsbD k = true) ∧ Advances 2 s t) ∧
    Completes (.andVxVy x y) s { regs := [x] } (fun t =>
      (∀ k < 8, (t.reg x).getLsbD k = true ↔ (s.reg x).getLsbD k = true ∧ (s.reg y).getLsbD k = true) ∧ Advances 2 s t) ∧
    Completes (.xorVxVy x y) s { regs := [x] } (fun t =>
      (∀ k < 8, (t.reg x).getLsbD k = true ↔ (s.reg x).getLsbD k ≠ (s.reg y).getLsbD k) ∧ Advances 2 s t)

/-- `8xy4`: the sum modulo 256 and its carry; where `x` is 15 the flag stays (42_alu.md, decision D9). -/
def Obligations.AddGivesSumAndCarry : Prop :=
  ∀ (x y : Nibble) (s : State), Completes (.addVxVy x y) s { regs := [x, 15] } (fun t =>
    (x ≠ 15 → (t.reg x).toNat = ((s.reg x).toNat + (s.reg y).toNat) % 256) ∧
    FlagIs (255 < (s.reg x).toNat + (s.reg y).toNat) t ∧ Advances 2 s t)

/-- `8xy5` and `8xy7`: the difference modulo 256, either way round, and its not-borrow; where `x` is 15 the flag stays
(42_alu.md, decision D9). -/
def Obligations.SubtractGivesDifferenceAndNotBorrow : Prop :=
  ∀ (x y : Nibble) (s : State),
    Completes (.subVxVy x y) s { regs := [x, 15] } (fun t =>
      (x ≠ 15 → (t.reg x).toNat = ((s.reg x).toNat + 256 - (s.reg y).toNat) % 256) ∧
      FlagIs ((s.reg y).toNat ≤ (s.reg x).toNat) t ∧ Advances 2 s t) ∧
    Completes (.subnVxVy x y) s { regs := [x, 15] } (fun t =>
      (x ≠ 15 → (t.reg x).toNat = ((s.reg y).toNat + 256 - (s.reg x).toNat) % 256) ∧
      FlagIs ((s.reg x).toNat ≤ (s.reg y).toNat) t ∧ Advances 2 s t)

/-- `8xy6` and `8xyE`: `V[x]` shifted one place and the bit shifted out, for every `y`; where `x` is 15 the flag stays
(42_alu.md, decisions D7, D9). -/
def Obligations.ShiftsGiveHalfAndDoubleAndTheBitOut : Prop :=
  ∀ (x y : Nibble) (s : State),
    Completes (.shrVx x y) s { regs := [x, 15] } (fun t =>
      (x ≠ 15 → (t.reg x).toNat = (s.reg x).toNat / 2) ∧ (t.reg 15).toNat = (s.reg x).toNat % 2 ∧ Advances 2 s t) ∧
    Completes (.shlVx x y) s { regs := [x, 15] } (fun t =>
      (x ≠ 15 → (t.reg x).toNat = 2 * (s.reg x).toNat % 256) ∧ (t.reg 15).toNat = (s.reg x).toNat / 128 ∧ Advances 2 s t)

/-- `Cxkk` writes the random byte masked by `kk`: the byte the `step` event supplies, for every such byte; and by itself the free
value of log entry 1, whose masked bits are 0 whatever it is (42_alu.md, decision D18). -/
def Obligations.RandomByteIsMaskedIntoTheRegister : Prop :=
  ∀ (x : Nibble) (kk : Byte) (s : State),
    Completes (.rndVxKk x kk) s { regs := [x] } (fun t =>
      t.reg x = Config.randomByte s.draws &&& kk ∧
      (∀ k, kk.getLsbD k = false → (t.reg x).getLsbD k = false) ∧ Advances 2 s t) ∧
    ∀ (p : Params) (rnd : Byte), ∃ t, execWith p rnd (.rndVxKk x kk) s = .next t ∧
      t.reg x = rnd &&& kk ∧ Unchanged { regs := [x] } s t ∧ Advances 2 s t

/-- Every instruction but `Cxkk` ignores the random byte, and every instruction but `Dxyn` the bit order, so that a step event
without `Cxkk` is the same whatever its byte, and is the step itself where the order is the default or the instruction is not
`Dxyn` (60_exceptions.md section 6, 44_display.md, decisions D18, D19; the default, bit 7 leftmost, is that of log entry 4,
PRESUMED). -/
def Obligations.OnlyRndReadsTheRandomByte : Prop :=
  ∀ (p : Params) (rnd : Byte) (s : State),
    (∀ op x kk, fetchWord s = .ok op → decodeWord op ≠ some (.rndVxKk x kk)) →
    (∀ rnd', stepWith p rnd s = stepWith p rnd' s) ∧
    (p.spriteMsbFirst = true ∨ (∀ op x y n, fetchWord s = .ok op → decodeWord op ≠ some (.drw x y n)) →
      stepWith p rnd s = step s)

/-! ## The index register and memory -/

/-- Rule R181: `Annn` loads all 12 bits of `nnn` into `I`, the upper 4 bits becoming 0. -/
def Obligations.LoadIndexTakesTwelveBits : Prop :=
  ∀ nnn : Addr12, EncodedAs (.ldINnn nnn) (0xA000 + nnn.toNat) ∧
    ∀ s, Completes (.ldINnn nnn) s { i := true } (fun t => t.i.toNat = nnn.toNat ∧ Advances 2 s t)

/-- `Fx1E` adds modulo 65536 and `Fx29` multiplies by 5, both without a flag, for every register value
(43_index_memory.md, decisions D13, D14). -/
def Obligations.IndexArithmetic : Prop :=
  ∀ (x : Nibble) (s : State),
    Completes (.addIVx x) s { i := true } (fun t =>
      t.i.toNat = (s.i.toNat + (s.reg x).toNat) % 65536 ∧ Advances 2 s t) ∧
    Completes (.ldFVx x) s { i := true } (fun t => t.i.toNat = 5 * (s.reg x).toNat ∧ Advances 2 s t)

/-- `Fx33` stores the three decimal digits of `V[x]`, hundreds first, in the bytes from `I` on and no others; where one of
them does not exist it stores none (43_index_memory.md, decisions D15, D20). -/
def Obligations.DecimalDigitsAreStoredAtI : Prop :=
  ∀ (x : Nibble) (s : State),
    (s.i.toNat + 2 < 4096 → Completes (.ldBVx x) s { base := s.i.toNat, len := 3 } (fun t =>
      (s.reg x).toNat = 100 * (t.readByte s.i.toNat).toNat + 10 * (t.readByte (s.i.toNat + 1)).toNat +
        (t.readByte (s.i.toNat + 2)).toNat ∧
      (t.readByte (s.i.toNat + 1)).toNat ≤ 9 ∧ (t.readByte (s.i.toNat + 2)).toNat ≤ 9 ∧ Advances 2 s t)) ∧
    (4096 ≤ s.i.toNat + 2 → exec (.ldBVx x) s = .fault (.outOfBounds .data (max s.i.toNat 4096)))

/-- `Fx55` stores `V[0]` to `V[x]` in the bytes from `I` on and no others; where one of them does not exist it stores none
(43_index_memory.md, decisions D15, D20, D21). -/
def Obligations.RegistersAreStoredAtI : Prop :=
  ∀ (x : Nibble) (s : State),
    (s.i.toNat + x.toNat < 4096 → Completes (.ldMemVx x) s { base := s.i.toNat, len := x.toNat + 1 } (fun t =>
      (∀ r : Nibble, r.toNat ≤ x.toNat → t.readByte (s.i.toNat + r.toNat) = s.reg r) ∧ Advances 2 s t)) ∧
    (4096 ≤ s.i.toNat + x.toNat → exec (.ldMemVx x) s = .fault (.outOfBounds .data (max s.i.toNat 4096)))

/-- `Fx65` loads `V[0]` to `V[x]` from the bytes from `I` on and no others; where one of them does not exist it loads none
(43_index_memory.md, decisions D15, D21). -/
def Obligations.RegistersAreLoadedFromI : Prop :=
  ∀ (x : Nibble) (s : State),
    (s.i.toNat + x.toNat < 4096 → Completes (.ldVxMem x) s { regs := regsTo x } (fun t =>
      (∀ r : Nibble, r.toNat ≤ x.toNat → t.reg r = s.readByte (s.i.toNat + r.toNat)) ∧
      (∀ r : Nibble, x.toNat < r.toNat → t.reg r = s.reg r) ∧ Advances 2 s t)) ∧
    (4096 ≤ s.i.toNat + x.toNat → exec (.ldVxMem x) s = .fault (.outOfBounds .data (max s.i.toNat 4096)))

/-- Registers stored by `Fx55` come back by `Fx65` from any state with the same `I` and the same bytes, whatever the registers held
in between (43_index_memory.md). -/
def Obligations.StoredRegistersComeBack : Prop :=
  ∀ (x : Nibble) (s t u : State), exec (.ldMemVx x) s = .next t → u.i = t.i → (∀ a, u.readByte a = t.readByte a) →
    ∃ w, exec (.ldVxMem x) u = .next w ∧ ∀ r : Nibble, r.toNat ≤ x.toNat → w.reg r = s.reg r

/-- A store is seen by the very next fetch: after `Fx55`, `Fx33` or `load` the fetch reads memory with the stored bytes laid over it,
whether both bytes of its word, one, or none was stored (20_memory.md section 9). -/
def Obligations.TheNextFetchSeesAStore : Prop :=
  (∀ (x : Nibble) (s t : State), exec (.ldMemVx x) s = .next t →
    FetchesFrom t (overlaid s s.i.toNat ((List.range (x.toNat + 1)).map fun k => s.reg (BitVec.ofNat 4 k)))) ∧
  (∀ (x : Nibble) (s t : State), exec (.ldBVx x) s = .next t →
    FetchesFrom t (overlaid s s.i.toNat
      (([(s.reg x).toNat / 100, (s.reg x).toNat / 10 % 10, (s.reg x).toNat % 10]).map (BitVec.ofNat 8)))) ∧
  ∀ (p : Params) (bytes : List Byte) (offset : Nat) (s t : State), applyEvent p (.load bytes offset) s = (.ok, t) →
    FetchesFrom t (overlaid s offset bytes)

/-! ## The framebuffer -/

/-- Rule R201: `00E0` clears every cell and writes no flag. -/
def Obligations.ClsClearsEveryCell : Prop :=
  EncodedAs .cls 0x00E0 ∧
  ∀ s : State, Completes .cls s { fb := true } (fun t => (∀ j < 2048, t.cell j = false) ∧ Advances 2 s t)

/-- `Dxyn` turns over exactly the cells under the 1 bits of its sprite, wrapping at both edges, and `VF` says whether one of them
was 1; where a byte of the sprite does not exist nothing is drawn (44_display.md, decisions D9, D15, D19). A step event draws by
the bit order of the machine's parameters, either one; `exec` by the default of log entry 4, PRESUMED: bit 7 leftmost. -/
def Obligations.DrawTogglesTheCoveredCells : Prop :=
  ∀ (x y n : Nibble) (s : State),
    (SpriteFits n s → Completes (.drw x y n) s { regs := [15], fb := true } (Drawn true x y n s)) ∧
    (¬SpriteFits n s → exec (.drw x y n) s = .fault (.outOfBounds .data (max s.i.toNat 4096))) ∧
    ∀ (p : Params) (rnd : Byte),
      (SpriteFits n s → ∃ t, execWith p rnd (.drw x y n) s = .next t ∧
        Unchanged { regs := [15], fb := true } s t ∧ Drawn p.spriteMsbFirst x y n s t) ∧
      (¬SpriteFits n s → execWith p rnd (.drw x y n) s = .fault (.outOfBounds .data (max s.i.toNat 4096)))

/-- One `Dxyn` touches no cell twice: the cells under the 1 bits of a sprite of at most 15 rows are all different, in either bit
order (44_display.md). -/
def Obligations.ASpriteTouchesNoCellTwice : Prop :=
  ∀ (msbFirst : Bool) (vx vy : Nat) (bytes : List Byte), bytes.length ≤ 15 → (spriteCells msbFirst vx vy 0 bytes).Nodup

/-- Drawing the same sprite twice leaves the framebuffer as it was, in either bit order; the first draw's flag says whether a
covered cell was 1, the second's whether one was 0 (44_display.md, decisions D15, D19, D21). In the default order, that of log entry 4, PRESUMED, `exec` draws so too. -/
def Obligations.DrawingTwiceRestoresTheFramebuffer : Prop :=
  ∀ (p : Params) (rnd rnd' : Byte) (x y n : Nibble) (s : State), x ≠ 15 → y ≠ 15 → SpriteFits n s →
    ∃ t u, execWith p rnd (.drw x y n) s = .next t ∧ execWith p rnd' (.drw x y n) t = .next u ∧
      (p.spriteMsbFirst = true → exec (.drw x y n) s = .next t ∧ exec (.drw x y n) t = .next u) ∧
      (∀ j < 2048, u.cell j = s.cell j) ∧
      FlagIs (∃ j < 2048, Covered p.spriteMsbFirst x y n s j ∧ s.cell j = true) t ∧
      FlagIs (∃ j < 2048, Covered p.spriteMsbFirst x y n s j ∧ s.cell j = false) u

/-! ## Timers and keys -/

/-- Rules R221 and R223: `Fx07` reads `DT` and `Fx15` writes it, and the first tick after the write takes 1 off whenever it comes;
nothing else changes. -/
def Obligations.DelayTimerIsReadAndWritten : Prop :=
  ∀ x : Nibble, EncodedAs (.ldVxDt x) (0xF007 + 0x100 * x.toNat) ∧ EncodedAs (.ldDtVx x) (0xF015 + 0x100 * x.toNat) ∧
    ∀ s,
      Completes (.ldVxDt x) s { regs := [x] } (fun t => t.reg x = s.dt ∧ Advances 2 s t) ∧
      Completes (.ldDtVx x) s { dt := true } (fun t => t.dt = s.reg x ∧ Advances 2 s t ∧
        ∀ p, (applyEvent p .tick t).2.dt.toNat = (s.reg x).toNat - 1)

/-- Rule R224: `Fx18` writes `ST`, which the ticks count down, and no instruction reads it: with another `ST` an instruction answers
the same, and leaves that other `ST` unless it is `Fx18`. -/
def Obligations.SoundTimerIsWrittenAndNeverRead : Prop :=
  (∀ x : Nibble, EncodedAs (.ldStVx x) (0xF018 + 0x100 * x.toNat) ∧
    ∀ s, Completes (.ldStVx x) s { st := true } (fun t => t.st = s.reg x ∧ Advances 2 s t ∧
      ∀ p, (applyEvent p .tick t).2.st.toNat = (s.reg x).toNat - 1) ∧
      ∀ b, exec (.ldStVx x) (s.setSt b) = exec (.ldStVx x) s) ∧
  ∀ (i : Instr) (s : State) (b : Byte), (∀ x, i ≠ .ldStVx x) →
    (∀ t, exec i s = .next t → exec i (s.setSt b) = .next (t.setSt b)) ∧
    ∀ e, exec i s = .fault e → exec i (s.setSt b) = .fault e

/-- `Fx0A` with no key pressed commits and writes nothing; with a key pressed it stores the least such key and goes on
(45_timers_keys.md, decision D17). -/
def Obligations.KeyWaitHoldsOrStoresTheLeastKey : Prop :=
  ∀ (x : Nibble) (s : State),
    ((∀ k < 16, s.keys.getLsbD k = false) → exec (.ldVxK x) s = .next s) ∧
    ∀ k < 16, s.keys.getLsbD k = true → (∀ j < k, s.keys.getLsbD j = false) →
      Completes (.ldVxK x) s { regs := [x] } (fun t => (t.reg x).toNat = k ∧ Advances 2 s t)
end

