-- ==== Sys2Proof/Laws/Decode.lean ====
section
/-! SUPPORT. The fields of a word and the words of the formats as numbers, and each field of each format read back. -/

namespace Sys2Proof

/-! ### Fields as numbers (rule R84) -/

theorem nibble1_toNat (op : Word) : (nibble1 op).toNat = op.toNat / 4096 := by
  have := op.isLt
  simp [nibble1, Nat.shiftRight_eq_div_pow]; omega

theorem fieldX_toNat (op : Word) : (fieldX op).toNat = op.toNat / 256 % 16 := by
  simp [fieldX, Nat.shiftRight_eq_div_pow]

theorem fieldY_toNat (op : Word) : (fieldY op).toNat = op.toNat / 16 % 16 := by
  simp [fieldY, Nat.shiftRight_eq_div_pow]

theorem fieldN_toNat (op : Word) : (fieldN op).toNat = op.toNat % 16 := by simp [fieldN]

theorem fieldKk_toNat (op : Word) : (fieldKk op).toNat = op.toNat % 256 := by simp [fieldKk]

theorem fieldNnn_toNat (op : Word) : (fieldNnn op).toNat = op.toNat % 4096 := by simp [fieldNnn]

/-! ### Words as numbers (rule R83) -/

theorem append_toNat {v w : Nat} (a : BitVec v) (b : BitVec w) : (a ++ b).toNat = a.toNat * 2 ^ w + b.toNat := by
  rw [BitVec.toNat_append, Nat.shiftLeft_eq, Nat.mul_comm, Nat.two_pow_add_eq_or_of_lt b.isLt]

theorem wordNnn_toNat (n1 : Nibble) (nnn : Addr12) : (wordNnn n1 nnn).toNat = n1.toNat * 4096 + nnn.toNat :=
  append_toNat n1 nnn

theorem wordXkk_toNat (n1 x : Nibble) (kk : Byte) :
    (wordXkk n1 x kk).toNat = n1.toNat * 4096 + x.toNat * 256 + kk.toNat := by
  change (n1 ++ x ++ kk).toNat = _
  rw [append_toNat, append_toNat]
  ring

theorem wordXyn_toNat (n1 x y n : Nibble) :
    (wordXyn n1 x y n).toNat = n1.toNat * 4096 + x.toNat * 256 + y.toNat * 16 + n.toNat := by
  change (n1 ++ x ++ y ++ n).toNat = _
  rw [append_toNat, append_toNat, append_toNat]
  ring

/-! ### Each field of each format -/

@[simp] theorem nibble1_wordNnn (n1 : Nibble) (nnn : Addr12) : nibble1 (wordNnn n1 nnn) = n1 := by
  apply BitVec.eq_of_toNat_eq
  have := nnn.isLt
  rw [nibble1_toNat, wordNnn_toNat]; omega

@[simp] theorem fieldNnn_wordNnn (n1 : Nibble) (nnn : Addr12) : fieldNnn (wordNnn n1 nnn) = nnn := by
  apply BitVec.eq_of_toNat_eq
  have := nnn.isLt
  rw [fieldNnn_toNat, wordNnn_toNat]; omega

@[simp] theorem nibble1_wordXkk (n1 x : Nibble) (kk : Byte) : nibble1 (wordXkk n1 x kk) = n1 := by
  apply BitVec.eq_of_toNat_eq
  have := x.isLt; have := kk.isLt
  rw [nibble1_toNat, wordXkk_toNat]; omega

@[simp] theorem fieldX_wordXkk (n1 x : Nibble) (kk : Byte) : fieldX (wordXkk n1 x kk) = x := by
  apply BitVec.eq_of_toNat_eq
  have := x.isLt; have := kk.isLt
  rw [fieldX_toNat, wordXkk_toNat]; omega

@[simp] theorem fieldKk_wordXkk (n1 x : Nibble) (kk : Byte) : fieldKk (wordXkk n1 x kk) = kk := by
  apply BitVec.eq_of_toNat_eq
  have := kk.isLt
  rw [fieldKk_toNat, wordXkk_toNat]; omega

@[simp] theorem nibble1_wordXyn (n1 x y n : Nibble) : nibble1 (wordXyn n1 x y n) = n1 := by
  apply BitVec.eq_of_toNat_eq
  have := x.isLt; have := y.isLt; have := n.isLt
  rw [nibble1_toNat, wordXyn_toNat]; omega

@[simp] theorem fieldX_wordXyn (n1 x y n : Nibble) : fieldX (wordXyn n1 x y n) = x := by
  apply BitVec.eq_of_toNat_eq
  have := x.isLt; have := y.isLt; have := n.isLt
  rw [fieldX_toNat, wordXyn_toNat]; omega

@[simp] theorem fieldY_wordXyn (n1 x y n : Nibble) : fieldY (wordXyn n1 x y n) = y := by
  apply BitVec.eq_of_toNat_eq
  have := y.isLt; have := n.isLt
  rw [fieldY_toNat, wordXyn_toNat]; omega

@[simp] theorem fieldN_wordXyn (n1 x y n : Nibble) : fieldN (wordXyn n1 x y n) = n := by
  apply BitVec.eq_of_toNat_eq
  have := n.isLt
  rw [fieldN_toNat, wordXyn_toNat]; omega

/-! ### A word is the word of its own fields, in each format -/

theorem wordNnn_fields (op : Word) : wordNnn (nibble1 op) (fieldNnn op) = op := by
  apply BitVec.eq_of_toNat_eq
  rw [wordNnn_toNat, nibble1_toNat, fieldNnn_toNat]; omega

theorem wordXkk_fields (op : Word) : wordXkk (nibble1 op) (fieldX op) (fieldKk op) = op := by
  apply BitVec.eq_of_toNat_eq
  rw [wordXkk_toNat, nibble1_toNat, fieldX_toNat, fieldKk_toNat]; omega

theorem wordXyn_fields (op : Word) : wordXyn (nibble1 op) (fieldX op) (fieldY op) (fieldN op) = op := by
  apply BitVec.eq_of_toNat_eq
  rw [wordXyn_toNat, nibble1_toNat, fieldX_toNat, fieldY_toNat, fieldN_toNat]; omega

/-- The bytes of a word in address order join to the word (rule R55). -/
theorem joinBytes_splitWord (op : Word) :
    joinBytes (op.extractLsb' 8 8) (op.extractLsb' 0 8) = op := by
  apply BitVec.eq_of_toNat_eq
  have := op.isLt
  have h := append_toNat (op.extractLsb' 8 8) (op.extractLsb' 0 8)
  change (joinBytes _ _).toNat = _ at h
  rw [h]
  simp [Nat.shiftRight_eq_div_pow]; omega

end Sys2Proof
end

