-- ==== Sys2Proof/Laws/State.lean ====
section
/-! SUPPORT. One lemma per field per update of the state, and what a register reads as after each update. -/

namespace Sys2Proof.Machine

variable (s : State)

/-! ### setReg -/

@[simp] theorem State.setReg_i (r : Nibble) (b : Byte) : (s.setReg r b).i = s.i := rfl
@[simp] theorem State.setReg_pc (r : Nibble) (b : Byte) : (s.setReg r b).pc = s.pc := rfl
@[simp] theorem State.setReg_stack (r : Nibble) (b : Byte) : (s.setReg r b).stack = s.stack := rfl
@[simp] theorem State.setReg_sp (r : Nibble) (b : Byte) : (s.setReg r b).sp = s.sp := rfl
@[simp] theorem State.setReg_dt (r : Nibble) (b : Byte) : (s.setReg r b).dt = s.dt := rfl
@[simp] theorem State.setReg_st (r : Nibble) (b : Byte) : (s.setReg r b).st = s.st := rfl
@[simp] theorem State.setReg_fb (r : Nibble) (b : Byte) : (s.setReg r b).fb = s.fb := rfl
@[simp] theorem State.setReg_keys (r : Nibble) (b : Byte) : (s.setReg r b).keys = s.keys := rfl
@[simp] theorem State.setReg_mem (r : Nibble) (b : Byte) : (s.setReg r b).mem = s.mem := rfl
@[simp] theorem State.setReg_draws (r : Nibble) (b : Byte) : (s.setReg r b).draws = s.draws := rfl

@[simp] theorem State.setReg_readByte (r : Nibble) (b : Byte) (at_ : Nat) : (s.setReg r b).readByte at_ = s.readByte at_ := rfl
@[simp] theorem State.setReg_cell (r : Nibble) (b : Byte) (j : Nat) : (s.setReg r b).cell j = s.cell j := rfl

/-! ### setI -/

@[simp] theorem State.setI_v (w : Word) : (s.setI w).v = s.v := rfl
@[simp] theorem State.setI_i (w : Word) : (s.setI w).i = w := rfl
@[simp] theorem State.setI_pc (w : Word) : (s.setI w).pc = s.pc := rfl
@[simp] theorem State.setI_stack (w : Word) : (s.setI w).stack = s.stack := rfl
@[simp] theorem State.setI_sp (w : Word) : (s.setI w).sp = s.sp := rfl
@[simp] theorem State.setI_dt (w : Word) : (s.setI w).dt = s.dt := rfl
@[simp] theorem State.setI_st (w : Word) : (s.setI w).st = s.st := rfl
@[simp] theorem State.setI_fb (w : Word) : (s.setI w).fb = s.fb := rfl
@[simp] theorem State.setI_keys (w : Word) : (s.setI w).keys = s.keys := rfl
@[simp] theorem State.setI_mem (w : Word) : (s.setI w).mem = s.mem := rfl
@[simp] theorem State.setI_draws (w : Word) : (s.setI w).draws = s.draws := rfl

@[simp] theorem State.setI_reg (w : Word) (q : Nibble) : (s.setI w).reg q = s.reg q := rfl
@[simp] theorem State.setI_readByte (w : Word) (at_ : Nat) : (s.setI w).readByte at_ = s.readByte at_ := rfl
@[simp] theorem State.setI_cell (w : Word) (j : Nat) : (s.setI w).cell j = s.cell j := rfl

/-! ### setDt -/

@[simp] theorem State.setDt_v (b : Byte) : (s.setDt b).v = s.v := rfl
@[simp] theorem State.setDt_i (b : Byte) : (s.setDt b).i = s.i := rfl
@[simp] theorem State.setDt_pc (b : Byte) : (s.setDt b).pc = s.pc := rfl
@[simp] theorem State.setDt_stack (b : Byte) : (s.setDt b).stack = s.stack := rfl
@[simp] theorem State.setDt_sp (b : Byte) : (s.setDt b).sp = s.sp := rfl
@[simp] theorem State.setDt_dt (b : Byte) : (s.setDt b).dt = b := rfl
@[simp] theorem State.setDt_st (b : Byte) : (s.setDt b).st = s.st := rfl
@[simp] theorem State.setDt_fb (b : Byte) : (s.setDt b).fb = s.fb := rfl
@[simp] theorem State.setDt_keys (b : Byte) : (s.setDt b).keys = s.keys := rfl
@[simp] theorem State.setDt_mem (b : Byte) : (s.setDt b).mem = s.mem := rfl
@[simp] theorem State.setDt_draws (b : Byte) : (s.setDt b).draws = s.draws := rfl

@[simp] theorem State.setDt_reg (b : Byte) (q : Nibble) : (s.setDt b).reg q = s.reg q := rfl
@[simp] theorem State.setDt_readByte (b : Byte) (at_ : Nat) : (s.setDt b).readByte at_ = s.readByte at_ := rfl
@[simp] theorem State.setDt_cell (b : Byte) (j : Nat) : (s.setDt b).cell j = s.cell j := rfl

/-! ### setSt -/

@[simp] theorem State.setSt_v (b : Byte) : (s.setSt b).v = s.v := rfl
@[simp] theorem State.setSt_i (b : Byte) : (s.setSt b).i = s.i := rfl
@[simp] theorem State.setSt_pc (b : Byte) : (s.setSt b).pc = s.pc := rfl
@[simp] theorem State.setSt_stack (b : Byte) : (s.setSt b).stack = s.stack := rfl
@[simp] theorem State.setSt_sp (b : Byte) : (s.setSt b).sp = s.sp := rfl
@[simp] theorem State.setSt_dt (b : Byte) : (s.setSt b).dt = s.dt := rfl
@[simp] theorem State.setSt_st (b : Byte) : (s.setSt b).st = b := rfl
@[simp] theorem State.setSt_fb (b : Byte) : (s.setSt b).fb = s.fb := rfl
@[simp] theorem State.setSt_keys (b : Byte) : (s.setSt b).keys = s.keys := rfl
@[simp] theorem State.setSt_mem (b : Byte) : (s.setSt b).mem = s.mem := rfl
@[simp] theorem State.setSt_draws (b : Byte) : (s.setSt b).draws = s.draws := rfl

@[simp] theorem State.setSt_reg (b : Byte) (q : Nibble) : (s.setSt b).reg q = s.reg q := rfl
@[simp] theorem State.setSt_readByte (b : Byte) (at_ : Nat) : (s.setSt b).readByte at_ = s.readByte at_ := rfl
@[simp] theorem State.setSt_cell (b : Byte) (j : Nat) : (s.setSt b).cell j = s.cell j := rfl

/-! ### setKeys -/

@[simp] theorem State.setKeys_v (k : BitVec 16) : (s.setKeys k).v = s.v := rfl
@[simp] theorem State.setKeys_i (k : BitVec 16) : (s.setKeys k).i = s.i := rfl
@[simp] theorem State.setKeys_pc (k : BitVec 16) : (s.setKeys k).pc = s.pc := rfl
@[simp] theorem State.setKeys_stack (k : BitVec 16) : (s.setKeys k).stack = s.stack := rfl
@[simp] theorem State.setKeys_sp (k : BitVec 16) : (s.setKeys k).sp = s.sp := rfl
@[simp] theorem State.setKeys_dt (k : BitVec 16) : (s.setKeys k).dt = s.dt := rfl
@[simp] theorem State.setKeys_st (k : BitVec 16) : (s.setKeys k).st = s.st := rfl
@[simp] theorem State.setKeys_fb (k : BitVec 16) : (s.setKeys k).fb = s.fb := rfl
@[simp] theorem State.setKeys_keys (k : BitVec 16) : (s.setKeys k).keys = k := rfl
@[simp] theorem State.setKeys_mem (k : BitVec 16) : (s.setKeys k).mem = s.mem := rfl
@[simp] theorem State.setKeys_draws (k : BitVec 16) : (s.setKeys k).draws = s.draws := rfl

@[simp] theorem State.setKeys_reg (k : BitVec 16) (q : Nibble) : (s.setKeys k).reg q = s.reg q := rfl
@[simp] theorem State.setKeys_readByte (k : BitVec 16) (at_ : Nat) : (s.setKeys k).readByte at_ = s.readByte at_ := rfl
@[simp] theorem State.setKeys_cell (k : BitVec 16) (j : Nat) : (s.setKeys k).cell j = s.cell j := rfl

/-! ### countDraw -/

@[simp] theorem State.countDraw_v : (s.countDraw).v = s.v := rfl
@[simp] theorem State.countDraw_i : (s.countDraw).i = s.i := rfl
@[simp] theorem State.countDraw_pc : (s.countDraw).pc = s.pc := rfl
@[simp] theorem State.countDraw_stack : (s.countDraw).stack = s.stack := rfl
@[simp] theorem State.countDraw_sp : (s.countDraw).sp = s.sp := rfl
@[simp] theorem State.countDraw_dt : (s.countDraw).dt = s.dt := rfl
@[simp] theorem State.countDraw_st : (s.countDraw).st = s.st := rfl
@[simp] theorem State.countDraw_fb : (s.countDraw).fb = s.fb := rfl
@[simp] theorem State.countDraw_keys : (s.countDraw).keys = s.keys := rfl
@[simp] theorem State.countDraw_mem : (s.countDraw).mem = s.mem := rfl
@[simp] theorem State.countDraw_draws : (s.countDraw).draws = s.draws + 1 := rfl

@[simp] theorem State.countDraw_reg (q : Nibble) : (s.countDraw).reg q = s.reg q := rfl
@[simp] theorem State.countDraw_readByte (at_ : Nat) : (s.countDraw).readByte at_ = s.readByte at_ := rfl
@[simp] theorem State.countDraw_cell (j : Nat) : (s.countDraw).cell j = s.cell j := rfl

/-! ### loadRegs -/

@[simp] theorem State.loadRegs_v (bytes : List Byte) : (s.loadRegs bytes).v = Regs.load s.v 0 bytes := rfl
@[simp] theorem State.loadRegs_i (bytes : List Byte) : (s.loadRegs bytes).i = s.i := rfl
@[simp] theorem State.loadRegs_pc (bytes : List Byte) : (s.loadRegs bytes).pc = s.pc := rfl
@[simp] theorem State.loadRegs_stack (bytes : List Byte) : (s.loadRegs bytes).stack = s.stack := rfl
@[simp] theorem State.loadRegs_sp (bytes : List Byte) : (s.loadRegs bytes).sp = s.sp := rfl
@[simp] theorem State.loadRegs_dt (bytes : List Byte) : (s.loadRegs bytes).dt = s.dt := rfl
@[simp] theorem State.loadRegs_st (bytes : List Byte) : (s.loadRegs bytes).st = s.st := rfl
@[simp] theorem State.loadRegs_fb (bytes : List Byte) : (s.loadRegs bytes).fb = s.fb := rfl
@[simp] theorem State.loadRegs_keys (bytes : List Byte) : (s.loadRegs bytes).keys = s.keys := rfl
@[simp] theorem State.loadRegs_mem (bytes : List Byte) : (s.loadRegs bytes).mem = s.mem := rfl
@[simp] theorem State.loadRegs_draws (bytes : List Byte) : (s.loadRegs bytes).draws = s.draws := rfl

@[simp] theorem State.loadRegs_readByte (bytes : List Byte) (at_ : Nat) : (s.loadRegs bytes).readByte at_ = s.readByte at_ := rfl
@[simp] theorem State.loadRegs_cell (bytes : List Byte) (j : Nat) : (s.loadRegs bytes).cell j = s.cell j := rfl

/-! ### jump -/

@[simp] theorem State.jump_v (t : Word) : (s.jump t).v = s.v := rfl
@[simp] theorem State.jump_i (t : Word) : (s.jump t).i = s.i := rfl
@[simp] theorem State.jump_pc (t : Word) : (s.jump t).pc = t := rfl
@[simp] theorem State.jump_stack (t : Word) : (s.jump t).stack = s.stack := rfl
@[simp] theorem State.jump_sp (t : Word) : (s.jump t).sp = s.sp := rfl
@[simp] theorem State.jump_dt (t : Word) : (s.jump t).dt = s.dt := rfl
@[simp] theorem State.jump_st (t : Word) : (s.jump t).st = s.st := rfl
@[simp] theorem State.jump_fb (t : Word) : (s.jump t).fb = s.fb := rfl
@[simp] theorem State.jump_keys (t : Word) : (s.jump t).keys = s.keys := rfl
@[simp] theorem State.jump_mem (t : Word) : (s.jump t).mem = s.mem := rfl
@[simp] theorem State.jump_draws (t : Word) : (s.jump t).draws = s.draws := rfl

@[simp] theorem State.jump_reg (t : Word) (q : Nibble) : (s.jump t).reg q = s.reg q := rfl
@[simp] theorem State.jump_readByte (t : Word) (at_ : Nat) : (s.jump t).readByte at_ = s.readByte at_ := rfl
@[simp] theorem State.jump_cell (t : Word) (j : Nat) : (s.jump t).cell j = s.cell j := rfl

/-! ### advance -/

@[simp] theorem State.advance_v : (s.advance).v = s.v := rfl
@[simp] theorem State.advance_i : (s.advance).i = s.i := rfl
@[simp] theorem State.advance_pc : (s.advance).pc = s.pc + 2#16 := rfl
@[simp] theorem State.advance_stack : (s.advance).stack = s.stack := rfl
@[simp] theorem State.advance_sp : (s.advance).sp = s.sp := rfl
@[simp] theorem State.advance_dt : (s.advance).dt = s.dt := rfl
@[simp] theorem State.advance_st : (s.advance).st = s.st := rfl
@[simp] theorem State.advance_fb : (s.advance).fb = s.fb := rfl
@[simp] theorem State.advance_keys : (s.advance).keys = s.keys := rfl
@[simp] theorem State.advance_mem : (s.advance).mem = s.mem := rfl
@[simp] theorem State.advance_draws : (s.advance).draws = s.draws := rfl

@[simp] theorem State.advance_reg (q : Nibble) : (s.advance).reg q = s.reg q := rfl
@[simp] theorem State.advance_readByte (at_ : Nat) : (s.advance).readByte at_ = s.readByte at_ := rfl
@[simp] theorem State.advance_cell (j : Nat) : (s.advance).cell j = s.cell j := rfl

/-! ### skipIf -/

@[simp] theorem State.skipIf_v (c : Bool) : (s.skipIf c).v = s.v := rfl
@[simp] theorem State.skipIf_i (c : Bool) : (s.skipIf c).i = s.i := rfl
@[simp] theorem State.skipIf_pc (c : Bool) : (s.skipIf c).pc = if c then s.pc + 4#16 else s.pc + 2#16 := rfl
@[simp] theorem State.skipIf_stack (c : Bool) : (s.skipIf c).stack = s.stack := rfl
@[simp] theorem State.skipIf_sp (c : Bool) : (s.skipIf c).sp = s.sp := rfl
@[simp] theorem State.skipIf_dt (c : Bool) : (s.skipIf c).dt = s.dt := rfl
@[simp] theorem State.skipIf_st (c : Bool) : (s.skipIf c).st = s.st := rfl
@[simp] theorem State.skipIf_fb (c : Bool) : (s.skipIf c).fb = s.fb := rfl
@[simp] theorem State.skipIf_keys (c : Bool) : (s.skipIf c).keys = s.keys := rfl
@[simp] theorem State.skipIf_mem (c : Bool) : (s.skipIf c).mem = s.mem := rfl
@[simp] theorem State.skipIf_draws (c : Bool) : (s.skipIf c).draws = s.draws := rfl

@[simp] theorem State.skipIf_reg (c : Bool) (q : Nibble) : (s.skipIf c).reg q = s.reg q := rfl
@[simp] theorem State.skipIf_readByte (c : Bool) (at_ : Nat) : (s.skipIf c).readByte at_ = s.readByte at_ := rfl
@[simp] theorem State.skipIf_cell (c : Bool) (j : Nat) : (s.skipIf c).cell j = s.cell j := rfl

/-! ### setMem -/

@[simp] theorem State.setMem_v (m : Memory) : (s.setMem m).v = s.v := rfl
@[simp] theorem State.setMem_i (m : Memory) : (s.setMem m).i = s.i := rfl
@[simp] theorem State.setMem_pc (m : Memory) : (s.setMem m).pc = s.pc := rfl
@[simp] theorem State.setMem_stack (m : Memory) : (s.setMem m).stack = s.stack := rfl
@[simp] theorem State.setMem_sp (m : Memory) : (s.setMem m).sp = s.sp := rfl
@[simp] theorem State.setMem_dt (m : Memory) : (s.setMem m).dt = s.dt := rfl
@[simp] theorem State.setMem_st (m : Memory) : (s.setMem m).st = s.st := rfl
@[simp] theorem State.setMem_fb (m : Memory) : (s.setMem m).fb = s.fb := rfl
@[simp] theorem State.setMem_keys (m : Memory) : (s.setMem m).keys = s.keys := rfl
@[simp] theorem State.setMem_mem (m : Memory) : (s.setMem m).mem = m := rfl
@[simp] theorem State.setMem_draws (m : Memory) : (s.setMem m).draws = s.draws := rfl

@[simp] theorem State.setMem_reg (m : Memory) (q : Nibble) : (s.setMem m).reg q = s.reg q := rfl
@[simp] theorem State.setMem_cell (m : Memory) (j : Nat) : (s.setMem m).cell j = s.cell j := rfl

/-! ### storeBytes -/

@[simp] theorem State.storeBytes_v (a : Nat) (bytes : List Byte) : (s.storeBytes a bytes).v = s.v := rfl
@[simp] theorem State.storeBytes_i (a : Nat) (bytes : List Byte) : (s.storeBytes a bytes).i = s.i := rfl
@[simp] theorem State.storeBytes_pc (a : Nat) (bytes : List Byte) : (s.storeBytes a bytes).pc = s.pc := rfl
@[simp] theorem State.storeBytes_stack (a : Nat) (bytes : List Byte) : (s.storeBytes a bytes).stack = s.stack := rfl
@[simp] theorem State.storeBytes_sp (a : Nat) (bytes : List Byte) : (s.storeBytes a bytes).sp = s.sp := rfl
@[simp] theorem State.storeBytes_dt (a : Nat) (bytes : List Byte) : (s.storeBytes a bytes).dt = s.dt := rfl
@[simp] theorem State.storeBytes_st (a : Nat) (bytes : List Byte) : (s.storeBytes a bytes).st = s.st := rfl
@[simp] theorem State.storeBytes_fb (a : Nat) (bytes : List Byte) : (s.storeBytes a bytes).fb = s.fb := rfl
@[simp] theorem State.storeBytes_keys (a : Nat) (bytes : List Byte) : (s.storeBytes a bytes).keys = s.keys := rfl
@[simp] theorem State.storeBytes_mem (a : Nat) (bytes : List Byte) : (s.storeBytes a bytes).mem = Memory.writeBytes s.mem a bytes := rfl
@[simp] theorem State.storeBytes_draws (a : Nat) (bytes : List Byte) : (s.storeBytes a bytes).draws = s.draws := rfl

@[simp] theorem State.storeBytes_reg (a : Nat) (bytes : List Byte) (q : Nibble) : (s.storeBytes a bytes).reg q = s.reg q := rfl
@[simp] theorem State.storeBytes_cell (a : Nat) (bytes : List Byte) (j : Nat) : (s.storeBytes a bytes).cell j = s.cell j := rfl

/-! ### setFb -/

@[simp] theorem State.setFb_v (fb : Frame) : (s.setFb fb).v = s.v := rfl
@[simp] theorem State.setFb_i (fb : Frame) : (s.setFb fb).i = s.i := rfl
@[simp] theorem State.setFb_pc (fb : Frame) : (s.setFb fb).pc = s.pc := rfl
@[simp] theorem State.setFb_stack (fb : Frame) : (s.setFb fb).stack = s.stack := rfl
@[simp] theorem State.setFb_sp (fb : Frame) : (s.setFb fb).sp = s.sp := rfl
@[simp] theorem State.setFb_dt (fb : Frame) : (s.setFb fb).dt = s.dt := rfl
@[simp] theorem State.setFb_st (fb : Frame) : (s.setFb fb).st = s.st := rfl
@[simp] theorem State.setFb_fb (fb : Frame) : (s.setFb fb).fb = fb := rfl
@[simp] theorem State.setFb_keys (fb : Frame) : (s.setFb fb).keys = s.keys := rfl
@[simp] theorem State.setFb_mem (fb : Frame) : (s.setFb fb).mem = s.mem := rfl
@[simp] theorem State.setFb_draws (fb : Frame) : (s.setFb fb).draws = s.draws := rfl

@[simp] theorem State.setFb_reg (fb : Frame) (q : Nibble) : (s.setFb fb).reg q = s.reg q := rfl
@[simp] theorem State.setFb_readByte (fb : Frame) (at_ : Nat) : (s.setFb fb).readByte at_ = s.readByte at_ := rfl

/-! ### setFlag -/

@[simp] theorem State.setFlag_i (c : Bool) : (s.setFlag c).i = s.i := rfl
@[simp] theorem State.setFlag_pc (c : Bool) : (s.setFlag c).pc = s.pc := rfl
@[simp] theorem State.setFlag_stack (c : Bool) : (s.setFlag c).stack = s.stack := rfl
@[simp] theorem State.setFlag_sp (c : Bool) : (s.setFlag c).sp = s.sp := rfl
@[simp] theorem State.setFlag_dt (c : Bool) : (s.setFlag c).dt = s.dt := rfl
@[simp] theorem State.setFlag_st (c : Bool) : (s.setFlag c).st = s.st := rfl
@[simp] theorem State.setFlag_fb (c : Bool) : (s.setFlag c).fb = s.fb := rfl
@[simp] theorem State.setFlag_keys (c : Bool) : (s.setFlag c).keys = s.keys := rfl
@[simp] theorem State.setFlag_mem (c : Bool) : (s.setFlag c).mem = s.mem := rfl
@[simp] theorem State.setFlag_draws (c : Bool) : (s.setFlag c).draws = s.draws := rfl

@[simp] theorem State.setFlag_readByte (c : Bool) (at_ : Nat) : (s.setFlag c).readByte at_ = s.readByte at_ := rfl
@[simp] theorem State.setFlag_cell (c : Bool) (j : Nat) : (s.setFlag c).cell j = s.cell j := rfl

/-! ### setResult -/

@[simp] theorem State.setResult_i (x : Nibble) (b : Byte) (c : Bool) : (s.setResult x b c).i = s.i := rfl
@[simp] theorem State.setResult_pc (x : Nibble) (b : Byte) (c : Bool) : (s.setResult x b c).pc = s.pc := rfl
@[simp] theorem State.setResult_stack (x : Nibble) (b : Byte) (c : Bool) : (s.setResult x b c).stack = s.stack := rfl
@[simp] theorem State.setResult_sp (x : Nibble) (b : Byte) (c : Bool) : (s.setResult x b c).sp = s.sp := rfl
@[simp] theorem State.setResult_dt (x : Nibble) (b : Byte) (c : Bool) : (s.setResult x b c).dt = s.dt := rfl
@[simp] theorem State.setResult_st (x : Nibble) (b : Byte) (c : Bool) : (s.setResult x b c).st = s.st := rfl
@[simp] theorem State.setResult_fb (x : Nibble) (b : Byte) (c : Bool) : (s.setResult x b c).fb = s.fb := rfl
@[simp] theorem State.setResult_keys (x : Nibble) (b : Byte) (c : Bool) : (s.setResult x b c).keys = s.keys := rfl
@[simp] theorem State.setResult_mem (x : Nibble) (b : Byte) (c : Bool) : (s.setResult x b c).mem = s.mem := rfl
@[simp] theorem State.setResult_draws (x : Nibble) (b : Byte) (c : Bool) : (s.setResult x b c).draws = s.draws := rfl

@[simp] theorem State.setResult_readByte (x : Nibble) (b : Byte) (c : Bool) (at_ : Nat) : (s.setResult x b c).readByte at_ = s.readByte at_ := rfl
@[simp] theorem State.setResult_cell (x : Nibble) (b : Byte) (c : Bool) (j : Nat) : (s.setResult x b c).cell j = s.cell j := rfl

/-! ### Registers -/

theorem nibble_toNat_inj {q r : Nibble} : q.toNat = r.toNat ↔ q = r := BitVec.toNat_inj

@[simp] theorem State.setReg_reg (r : Nibble) (b : Byte) (q : Nibble) :
    (s.setReg r b).reg q = if q = r then b else s.reg q := by
  simp only [State.reg, State.setReg, Vector.getElem_set]
  by_cases h : q = r
  · simp [h]
  · have : r.toNat ≠ q.toNat := fun e => h (BitVec.eq_of_toNat_eq e).symm
    simp [h, this]

@[simp] theorem State.setFlag_reg (c : Bool) (q : Nibble) :
    (s.setFlag c).reg q = if q = 15#4 then flagByte c else s.reg q := by
  simp [State.setFlag, flagReg]

@[simp] theorem State.setResult_reg (x : Nibble) (b : Byte) (c : Bool) (q : Nibble) :
    (s.setResult x b c).reg q = if q = 15#4 then flagByte c else if q = x then b else s.reg q := by
  simp [State.setResult]

end Sys2Proof.Machine
end

