-- ==== Sys2Proof/Laws/Memory.lean ====
section
/-! SUPPORT. The laws of memory: read after write, the bytes a write leaves alone, and that every operation keeps the
canonical form. The read laws hold of every list; only the form's own laws assume the form. -/

namespace Sys2Proof.Machine

/-! ### Reading -/

@[simp] theorem Memory.read_nil (a : Nat) : Memory.read [] a = Memory.background a := rfl

theorem Memory.read_cons (k : Nat) (b : Byte) (m : Memory) (a : Nat) :
    Memory.read ((k, b) :: m) a = if k = a then b else Memory.read m a := rfl

theorem Memory.read_drop (m : Memory) (a q : Nat) :
    Memory.read (Memory.drop m a) q = if q = a then Memory.background a else Memory.read m q := by
  induction m with
  | nil => by_cases h : q = a <;> simp [Memory.drop, h]
  | cons c m ih =>
    obtain ⟨k, b⟩ := c
    by_cases hk : k = a
    · have : Memory.drop ((k, b) :: m) a = Memory.drop m a := by simp [Memory.drop, hk]
      rw [this, ih, Memory.read_cons]
      by_cases hq : q = a
      · simp [hq]
      · have : ¬ k = q := fun e => hq (e ▸ hk)
        simp [hq, this]
    · have : Memory.drop ((k, b) :: m) a = (k, b) :: Memory.drop m a := by simp [Memory.drop, hk]
      rw [this, Memory.read_cons, Memory.read_cons, ih]
      by_cases hq : k = q
      · have : ¬ q = a := fun e => hk (hq.trans e)
        simp [hq, this]
      · simp [hq]

theorem Memory.read_insert {m : Memory} {a : Nat} (b : Byte) (h : ∀ c ∈ m, c.1 ≠ a) (q : Nat) :
    Memory.read (Memory.insert m a b) q = if q = a then b else Memory.read m q := by
  induction m with
  | nil =>
    simp only [Memory.insert, Memory.read_cons]
    by_cases hq : q = a
    · simp [hq]
    · simp [hq, Ne.symm hq]
  | cons c m ih =>
    obtain ⟨k, d⟩ := c
    have hk : k ≠ a := h (k, d) (by simp)
    simp only [Memory.insert]
    split
    · simp only [Memory.read_cons (k := a)]
      by_cases hq : q = a
      · simp [hq]
      · simp [hq, Ne.symm hq]
    · rw [Memory.read_cons, Memory.read_cons, ih (fun c hc => h c (by simp [hc]))]
      by_cases hq : k = q
      · have : ¬ q = a := fun e => hk (hq.trans e)
        simp [hq, this]
      · simp [hq]

theorem Memory.ne_of_mem_drop {m : Memory} {a : Nat} {c : Host.Cell} (h : c ∈ Memory.drop m a) : c.1 ≠ a := by
  have := (List.mem_filter.mp h).2
  simpa using this

/-- A read after a write: the byte written at its own address, and what stood there before at any other. -/
theorem Memory.read_write (m : Memory) (a : Nat) (b : Byte) (q : Nat) :
    Memory.read (Memory.write m a b) q = if q = a then b else Memory.read m q := by
  unfold Memory.write
  split
  · next h => rw [Memory.read_drop, ← h]
  · rw [Memory.read_insert b (fun c hc => Memory.ne_of_mem_drop hc), Memory.read_drop]
    by_cases hq : q = a <;> simp [hq]

/-- A read after a run of bytes is written at `a`. -/
theorem Memory.read_writeBytes (m : Memory) (a : Nat) (bytes : List Byte) (q : Nat) :
    Memory.read (Memory.writeBytes m a bytes) q =
      if a ≤ q then (bytes[q - a]?).getD (Memory.read m q) else Memory.read m q := by
  induction bytes generalizing m a with
  | nil => simp [Memory.writeBytes]
  | cons b rest ih =>
    rw [Memory.writeBytes, ih, Memory.read_write]
    by_cases h1 : a + 1 ≤ q
    · have h2 : a ≤ q := by omega
      have h3 : ¬ q = a := by omega
      have h4 : q - a = (q - (a + 1)) + 1 := by omega
      simp [h1, h2, h3, h4]
    · by_cases h2 : q = a
      · simp [h2]
      · have h3 : ¬ a ≤ q := by omega
        simp [h1, h2, h3]

/-- Bytes outside a run of written bytes read as before. -/
theorem Memory.read_writeBytes_outside (m : Memory) (a : Nat) (bytes : List Byte) {q : Nat}
    (h : q < a ∨ a + bytes.length ≤ q) : Memory.read (Memory.writeBytes m a bytes) q = Memory.read m q := by
  rw [Memory.read_writeBytes]
  split
  · rw [List.getElem?_eq_none (by omega)]; rfl
  · rfl

@[simp] theorem Memory.length_readBytes (m : Memory) (a len : Nat) : (Memory.readBytes m a len).length = len := by
  simp [Memory.readBytes]

theorem Memory.getElem?_readBytes (m : Memory) (a len k : Nat) :
    (Memory.readBytes m a len)[k]? = if k < len then some (Memory.read m (a + k)) else none := by
  simp only [Memory.readBytes, List.getElem?_map]
  by_cases h : k < len
  · simp [h]
  · rw [List.getElem?_eq_none (by simpa using h)]; simp [h]

/-! ### The canonical form -/

theorem Memory.wf_nil : Memory.wf [] := by simp [Memory.wf]

theorem Memory.wf_drop {m : Memory} (h : Memory.wf m) (a : Nat) : Memory.wf (Memory.drop m a) :=
  ⟨h.1.sublist List.filter_sublist, fun c hc => h.2 c (List.mem_filter.mp hc).1⟩

theorem Memory.mem_insert {m : Memory} {a : Nat} {b : Byte} {c : Host.Cell} (h : c ∈ Memory.insert m a b) :
    c = (a, b) ∨ c ∈ m := by
  induction m with
  | nil => simpa [Memory.insert] using h
  | cons d m ih =>
    obtain ⟨k, e⟩ := d
    simp only [Memory.insert] at h
    split at h
    · simpa using h
    · rcases List.mem_cons.mp h with h | h
      · exact Or.inr (by simp [h])
      · rcases ih h with h | h
        · exact Or.inl h
        · exact Or.inr (by simp [h])

theorem Memory.wf_insert {m : Memory} {a : Nat} {b : Byte} (h : Memory.wf m) (hm : ∀ c ∈ m, c.1 ≠ a)
    (ha : a < Config.memSize) (hb : b ≠ Memory.background a) : Memory.wf (Memory.insert m a b) := by
  refine ⟨?_, fun c hc => ?_⟩
  · have hs := h.1
    clear h
    induction m with
    | nil => simp [Memory.insert]
    | cons d m ih =>
      obtain ⟨k, e⟩ := d
      obtain ⟨hlt, hrest⟩ := List.pairwise_cons.mp hs
      simp only [Memory.insert]
      split
      · next hk =>
        refine List.pairwise_cons.mpr ⟨fun c hc => ?_, hs⟩
        rcases List.mem_cons.mp hc with rfl | hc
        · exact hk
        · exact Nat.lt_trans hk (hlt c hc)
      · next hk =>
        refine List.pairwise_cons.mpr ⟨fun c hc => ?_, ih (fun c hc => hm c (by simp [hc])) hrest⟩
        rcases Memory.mem_insert hc with rfl | hc
        · have := hm (k, e) (by simp)
          simp only at this ⊢
          omega
        · exact hlt c hc
  · rcases Memory.mem_insert hc with rfl | hc
    · exact ⟨ha, hb⟩
    · exact h.2 c hc

/-- A write at an address that exists keeps the canonical form. -/
theorem Memory.wf_write {m : Memory} (h : Memory.wf m) {a : Nat} (ha : a < Config.memSize) (b : Byte) :
    Memory.wf (Memory.write m a b) := by
  unfold Memory.write
  split
  · exact Memory.wf_drop h a
  · next hb => exact Memory.wf_insert (Memory.wf_drop h a) (fun c hc => Memory.ne_of_mem_drop hc) ha hb

/-- A run of bytes written at addresses that exist keeps the canonical form. -/
theorem Memory.wf_writeBytes {m : Memory} (h : Memory.wf m) {a : Nat} {bytes : List Byte}
    (ha : a + bytes.length ≤ Config.memSize) : Memory.wf (Memory.writeBytes m a bytes) := by
  induction bytes generalizing m a with
  | nil => exact h
  | cons b rest ih =>
    simp only [List.length_cons] at ha
    exact ih (Memory.wf_write h (by omega) b) (by omega)

theorem State.reset_mem_wf : Memory.wf State.reset.mem := Memory.wf_nil

/-! ### The state's memory -/

variable (s : State)

@[simp] theorem State.setMem_readByte (m : Memory) (a : Nat) : (s.setMem m).readByte a = Memory.read m a := rfl

theorem State.storeBytes_readByte (a : Nat) (bytes : List Byte) (q : Nat) :
    (s.storeBytes a bytes).readByte q = if a ≤ q then (bytes[q - a]?).getD (s.readByte q) else s.readByte q :=
  Memory.read_writeBytes s.mem a bytes q

theorem State.storeBytes_readByte_outside (a : Nat) (bytes : List Byte) {q : Nat} (h : q < a ∨ a + bytes.length ≤ q) :
    (s.storeBytes a bytes).readByte q = s.readByte q :=
  Memory.read_writeBytes_outside s.mem a bytes h

@[simp] theorem State.length_dataBytes (len : Nat) : (s.dataBytes len).length = len := Memory.length_readBytes ..

theorem State.getElem?_dataBytes (len k : Nat) :
    (s.dataBytes len)[k]? = if k < len then some (s.readByte (s.i.toNat + k)) else none :=
  Memory.getElem?_readBytes ..

/-- Every address of the font table and every other reads as reset leaves it (rule R280). -/
theorem State.reset_readByte (a : Nat) : State.reset.readByte a = (Default.font[a]?).getD 0 := rfl

end Sys2Proof.Machine
end

