-- ==== Sys2Proof/Laws/Ops.lean ====
section
/-! SUPPORT. One lemma per shared operation that says everything it can do. -/

namespace Sys2Proof.Machine

variable (s : State)

/-! ### Runs of registers -/

theorem Regs.load_getElem (v : Vector Byte 16) (k : Nat) (bytes : List Byte) (q : Nat) (h : q < 16) :
    (Regs.load v k bytes)[q] = if k ≤ q then (bytes[q - k]?).getD v[q] else v[q] := by
  induction bytes generalizing v k with
  | nil => simp [Regs.load]
  | cons b rest ih =>
    rw [Regs.load, ih, Vector.getElem_setIfInBounds]
    by_cases h1 : k + 1 ≤ q
    · have h2 : k ≤ q := by omega
      have h3 : ¬ k = q := by omega
      have h4 : q - k = (q - (k + 1)) + 1 := by omega
      simp [h1, h2, h3, h4]
    · by_cases h2 : k = q
      · simp [h2]
      · have h3 : ¬ k ≤ q := by omega
        simp [h1, h2, h3]

/-- A run of bytes loaded into the registers from `V[0]` on. -/
theorem State.loadRegs_reg (bytes : List Byte) (q : Nibble) :
    (s.loadRegs bytes).reg q = (bytes[q.toNat]?).getD (s.reg q) := by
  simp [State.reg, State.loadRegs, Regs.load_getElem]

@[simp] theorem State.length_regsUpTo (x : Nibble) : (s.regsUpTo x).length = x.toNat + 1 := by
  have := nibble_lt x
  simp [State.regsUpTo]; omega

theorem State.getElem?_regsUpTo (x q : Nibble) :
    (s.regsUpTo x)[q.toNat]? = if q ≤ x then some (s.reg q) else none := by
  have hq := nibble_lt q
  simp only [State.regsUpTo, List.getElem?_take, BitVec.le_def, Nat.lt_succ_iff, Vector.getElem?_toList]
  split
  · simp [State.reg, hq]
  · rfl

/-! ### The stack -/

/-- A push answers a state exactly while `SP` is below 16, and then this one. -/
theorem State.push?_eq (ret : Word) :
    (s.sp.val = 16 ∧ s.push? ret = none) ∨
    ∃ h : s.sp.val < 16, s.push? ret =
      some { s with stack := s.stack.set s.sp.val ret h, sp := ⟨s.sp.val + 1, Nat.succ_lt_succ h⟩ } := by
  by_cases h : s.sp.val < 16
  · exact Or.inr ⟨h, by simp [State.push?, h]⟩
  · exact Or.inl ⟨by omega, by simp [State.push?, h]⟩

/-- A pop answers exactly while `SP` is above 0, and then the newest slot. -/
theorem State.pop?_eq :
    (s.sp.val = 0 ∧ s.pop? = none) ∨
    ∃ h : 0 < s.sp.val, s.pop? =
      some (s.stack[s.sp.val - 1]'(by omega), { s with sp := ⟨s.sp.val - 1, by omega⟩ }) := by
  by_cases h : 0 < s.sp.val
  · exact Or.inr ⟨h, by simp [State.pop?, h]⟩
  · exact Or.inl ⟨by omega, by simp [State.pop?, h]⟩

/-! ### Checks before an effect -/

/-- Data addresses that all exist: the effect; else `OutOfBounds(data)` (rule R54). -/
theorem withData_eq (len : Nat) (t : State) :
    withData s len t =
      if len = 0 ∨ s.i.toNat + (len - 1) < 4096 then .next t
      else .fault (.outOfBounds .data (max s.i.toNat 4096)) := by
  simp only [withData, State.dataFits, Bool.or_eq_true, beq_iff_eq, decide_eq_true_eq]
  rfl

/-- A key number up to 15: the effect; else `OutOfBounds(key)` (rule R135). -/
theorem withKey_eq (x : Nibble) (t : State) :
    withKey s x t = if 15 < (s.reg x).toNat then .fault (.outOfBounds .key (s.reg x).toNat) else .next t := rfl

/-- What the least pressed key is (rule R222). -/
theorem leastKey_eq (keys : BitVec 16) :
    (leastKey keys = none ∧ keys = 0) ∨
    ∃ k, k < 16 ∧ leastKey keys = some k ∧ keys.getLsbD k = true ∧ ∀ j < k, keys.getLsbD j = false := by
  cases h : leastKey keys with
  | none =>
    refine Or.inl ⟨rfl, BitVec.eq_of_getLsbD_eq fun j hj => ?_⟩
    have := List.find?_eq_none.mp h j (by simpa using hj)
    simpa [keyDown] using this
  | some k =>
    have hd : keyDown keys k = true := List.find?_some h
    have hk : k < 16 := by simpa using List.mem_of_find?_eq_some h
    obtain ⟨-, i, hi, hik, hall⟩ := List.find?_eq_some_iff_getElem.mp h
    simp only [List.getElem_range] at hik
    subst hik
    refine Or.inr ⟨i, hk, rfl, hd, fun j hj => ?_⟩
    have := hall j hj
    simpa [keyDown] using this

/-! ### The framebuffer -/

/-- A toggle turns its own cell over and leaves every other alone. -/
theorem cellOf_toggleCell (fb : Frame) (j q : Nat) (hj : j < 2048) :
    cellOf (toggleCell fb j) q = if q = j then !cellOf fb j else cellOf fb q := by
  have hr : j / 64 < 32 := by omega
  simp only [cellOf, toggleCell, Vector.getElem?_setIfInBounds]
  by_cases hrow : j / 64 = q / 64
  · have hq : q / 64 < 32 := by omega
    by_cases hqj : q = j
    · have : j % 64 < 64 := by omega
      simp [hqj, hr, this]
    · have hcol : q % 64 ≠ j % 64 := by omega
      have hlt : q % 64 < 64 := by omega
      simp only [hrow, hq, if_true, Option.getD_some, BitVec.getLsbD_xor, hqj, if_false]
      have : (1#64 <<< (j % 64)).getLsbD (q % 64) = false := by
        simp only [BitVec.getLsbD_shiftLeft, BitVec.getLsbD_one]
        by_cases hlt' : q % 64 < j % 64
        · simp [hlt']
        · have : q % 64 - j % 64 ≠ 0 := by omega
          simp [this]
      simp [this]
  · have hqj : ¬ q = j := fun e => hrow (by rw [e])
    simp [hrow, hqj]

/-- Drawing cells that are all different: each is turned over, and the flag says whether one was 1 (rule R203). -/
theorem drawCells_eq (cells : List Nat) (hit : Bool) (fb : Frame) (hnd : cells.Nodup) (hb : ∀ j ∈ cells, j < 2048) :
    (drawCells cells hit fb).1 = (hit || cells.any (cellOf fb)) ∧
    ∀ q, cellOf (drawCells cells hit fb).2 q = (cellOf fb q ^^ decide (q ∈ cells)) := by
  induction cells generalizing hit fb with
  | nil => simp [drawCells]
  | cons j rest ih =>
    obtain ⟨hj, hrest⟩ := List.nodup_cons.mp hnd
    have hjb := hb j (by simp)
    obtain ⟨h1, h2⟩ := ih (hit || cellOf fb j) (toggleCell fb j) hrest (fun q hq => hb q (by simp [hq]))
    refine ⟨?_, fun q => ?_⟩
    · have : rest.any (cellOf (toggleCell fb j)) = rest.any (cellOf fb) := by
        rw [Bool.eq_iff_iff]
        simp only [List.any_eq_true]
        constructor <;> rintro ⟨q, hq, hc⟩ <;> refine ⟨q, hq, ?_⟩ <;>
          have : q ≠ j := (fun e => hj (e ▸ hq)) <;>
          simpa [cellOf_toggleCell fb j q hjb, this] using hc
      rw [drawCells, h1, this, List.any_cons, Bool.or_assoc]
    · rw [drawCells, h2, cellOf_toggleCell fb j q hjb]
      by_cases hq : q = j
      · simp [hq, hj]
      · simp [hq]

theorem spriteCell_lt (vx vy row col : Nat) : spriteCell vx vy row col < 2048 := by
  unfold spriteCell; omega

/-- Which cells a sprite has: one for each 1 bit of each of its bytes (rule R202). -/
theorem mem_spriteCells (msbFirst : Bool) (vx vy row : Nat) (bytes : List Byte) (j : Nat) :
    j ∈ spriteCells msbFirst vx vy row bytes ↔
      ∃ k b, bytes[k]? = some b ∧ ∃ col < 8, spriteBit msbFirst b col = true ∧ j = spriteCell vx vy (row + k) col := by
  induction bytes generalizing row with
  | nil => simp [spriteCells]
  | cons b rest ih =>
    simp only [spriteCells, List.mem_append, ih, rowCells, List.mem_map, List.mem_filter, List.mem_range]
    constructor
    · rintro (⟨col, ⟨hc, hb⟩, rfl⟩ | ⟨k, c, hk, col, hc, hb, rfl⟩)
      · exact ⟨0, b, rfl, col, hc, hb, rfl⟩
      · exact ⟨k + 1, c, by simpa using hk, col, hc, hb, by rw [Nat.add_assoc, Nat.add_comm 1 k]⟩
    · rintro ⟨k, c, hk, col, hc, hb, rfl⟩
      cases k with
      | zero =>
        simp only [List.getElem?_cons_zero, Option.some.injEq] at hk
        subst hk
        exact Or.inl ⟨col, ⟨hc, hb⟩, rfl⟩
      | succ k =>
        exact Or.inr ⟨k, c, by simpa using hk, col, hc, hb, by rw [Nat.add_assoc, Nat.add_comm 1 k]⟩

theorem spriteCells_lt {msbFirst : Bool} {vx vy row : Nat} {bytes : List Byte} {j : Nat} (h : j ∈ spriteCells msbFirst vx vy row bytes) :
    j < 2048 := by
  obtain ⟨k, b, -, col, -, -, rfl⟩ := (mem_spriteCells ..).mp h
  exact spriteCell_lt ..

@[simp] theorem cellOf_blankFrame (j : Nat) : cellOf blankFrame j = false := by
  simp only [cellOf, blankFrame, Vector.getElem?_replicate]
  split <;> simp

@[simp] theorem State.setFb_cell (fb : Frame) (j : Nat) : (s.setFb fb).cell j = cellOf fb j := rfl

/-! ### Fetch and step -/

/-- A fetch answers a word exactly while both its bytes exist (rule R80). -/
theorem fetchWord_eq :
    fetchWord s = if 4096 ≤ s.pc.toNat + 1 then .error (.outOfBounds .fetch s.pc.toNat)
      else .ok (joinBytes (s.readByte s.pc.toNat) (s.readByte (s.pc.toNat + 1))) := rfl

/-- A word's value is its first byte times 256 plus its second (rule R55). -/
theorem joinBytes_toNat (a b : Byte) : (joinBytes a b).toNat = a.toNat * 256 + b.toNat := by
  simp only [joinBytes, BitVec.toNat_append]
  rw [Nat.shiftLeft_eq, Nat.mul_comm, ← Nat.two_pow_add_eq_or_of_lt b.isLt]

/-- Everything a step can do (rules R42, R247). -/
theorem step_cases :
    (4096 ≤ s.pc.toNat + 1 ∧ step s = .fault (.outOfBounds .fetch s.pc.toNat)) ∨
    ∃ op, fetchWord s = .ok op ∧ s.pc.toNat + 1 < 4096 ∧
      ((decodeWord op = none ∧ step s = .fault (.unknownOpcode op s.pc)) ∨
        ∃ i, decodeWord op = some i ∧ step s = exec i s) := by
  by_cases h : 4096 ≤ s.pc.toNat + 1
  · exact Or.inl ⟨h, by simp [step, fetchWord_eq, h, raise]⟩
  · refine Or.inr ⟨_, by rw [fetchWord_eq, if_neg h], by omega, ?_⟩
    cases hd : decodeWord (joinBytes (s.readByte s.pc.toNat) (s.readByte (s.pc.toNat + 1))) with
    | none => exact Or.inl ⟨rfl, by simp [step, fetchWord_eq, h, hd, raise]⟩
    | some i => exact Or.inr ⟨i, rfl, by simp [step, fetchWord_eq, h, hd]⟩

/-- A step that commits ran an instruction. -/
theorem step_next {s t : State} (h : step s = .next t) :
    ∃ op i, fetchWord s = .ok op ∧ s.pc.toNat + 1 < 4096 ∧ decodeWord op = some i ∧ exec i s = .next t := by
  rcases step_cases s with ⟨-, hs⟩ | ⟨op, hf, hpc, ⟨-, hs⟩ | ⟨i, hi, hs⟩⟩
  · rw [hs] at h; cases h
  · rw [hs] at h; cases h
  · exact ⟨op, i, hf, hpc, hi, hs ▸ h⟩

end Sys2Proof.Machine
end

