-- ==== Sys2Proof/Laws/Events.lean ====
section
/-! SUPPORT. One lemma per event operation that says everything it can do, and what the state after a reset holds. -/

namespace Sys2Proof.Machine

variable (s : State)

/-! ### Reset -/

@[simp] theorem State.resetEvent_v (font : Font) (w : Word) : (s.resetEvent font w).v = Vector.replicate 16 0 := rfl
@[simp] theorem State.resetEvent_i (font : Font) (w : Word) : (s.resetEvent font w).i = 0 := rfl
@[simp] theorem State.resetEvent_pc (font : Font) (w : Word) : (s.resetEvent font w).pc = w := rfl
@[simp] theorem State.resetEvent_stack (font : Font) (w : Word) : (s.resetEvent font w).stack = Vector.replicate 16 0 := rfl
@[simp] theorem State.resetEvent_sp (font : Font) (w : Word) : (s.resetEvent font w).sp = 0 := rfl
@[simp] theorem State.resetEvent_dt (font : Font) (w : Word) : (s.resetEvent font w).dt = 0 := rfl
@[simp] theorem State.resetEvent_st (font : Font) (w : Word) : (s.resetEvent font w).st = 0 := rfl
@[simp] theorem State.resetEvent_fb (font : Font) (w : Word) : (s.resetEvent font w).fb = blankFrame := rfl
@[simp] theorem State.resetEvent_keys (font : Font) (w : Word) : (s.resetEvent font w).keys = 0 := rfl
@[simp] theorem State.resetEvent_mem (font : Font) (w : Word) :
    (s.resetEvent font w).mem = (State.resetWith font w).mem := rfl
@[simp] theorem State.resetEvent_draws (font : Font) (w : Word) : (s.resetEvent font w).draws = s.draws := rfl

/-- Beyond the font every unlisted byte is 0 (rule R280). -/
theorem Memory.background_eq_zero {a : Nat} (h : 80 ≤ a) : Memory.background a = 0 := by
  have : ¬ a < 80 := by omega
  simp [Memory.background, this]

/-- Memory after a reset: FONT at 0 to 79, and 0 elsewhere (rules R61, R280). -/
theorem State.resetWith_readByte (font : Font) (w : Word) (a : Nat) :
    (State.resetWith font w).readByte a = (font[a]?).getD 0 := by
  have h := Memory.read_writeBytes [] 0 font.toList a
  simp only [Nat.zero_le, if_true, Nat.sub_zero, Memory.read_nil, Vector.getElem?_toList] at h
  refine Eq.trans h ?_
  by_cases ha : a < 80
  · simp [ha]
  · simp [ha, Memory.background_eq_zero (Nat.le_of_not_lt ha)]

theorem State.resetWith_mem_wf (font : Font) (w : Word) : Memory.wf (State.resetWith font w).mem :=
  Memory.wf_writeBytes Memory.wf_nil (by simp [Config.memSize])

/-! ### Load, tick -/

/-- A load stores all its bytes, or answers an error where they do not fit (rule R60). -/
theorem State.load_eq (bytes : List Byte) (offset : Nat) :
    s.load bytes offset = if 4096 < offset + bytes.length then .error (.outOfBounds .load (offset + bytes.length))
      else .ok (s.storeBytes offset bytes) := rfl

/-- Natural-number subtraction is the floor at 0 (rule R260). -/
theorem tickDown_toNat (b : Byte) : (tickDown b).toNat = b.toNat - 1 := by
  revert b; decide

/-! ### The step event -/

/-- An instruction of an event is `Cxkk` with the event's byte, or `Dxyn` by the machine's bit order, or does what `exec` does
(rules R206, R267). -/
theorem execWith_cases (p : Params) (rnd : Byte) (i : Instr) :
    (∃ x kk, i = .rndVxKk x kk ∧ execWith p rnd i s = .next (rndState rnd x kk s)) ∨
    (∃ x y n, i = .drw x y n ∧ execWith p rnd i s = execDrwIn p.spriteMsbFirst x y n s) ∨
    (∀ x kk, i ≠ .rndVxKk x kk) ∧ (∀ x y n, i ≠ .drw x y n) ∧ execWith p rnd i s = exec i s := by
  cases i with
  | rndVxKk x kk => exact Or.inl ⟨x, kk, rfl, rfl⟩
  | drw x y n => exact Or.inr (Or.inl ⟨x, y, n, rfl, rfl⟩)
  | _ => exact Or.inr (Or.inr ⟨by simp, by simp, rfl⟩)

/-- Everything the step of an event can do (rules R42, R247). -/
theorem stepWith_cases (p : Params) (rnd : Byte) :
    (4096 ≤ s.pc.toNat + 1 ∧ stepWith p rnd s = .fault (.outOfBounds .fetch s.pc.toNat)) ∨
    ∃ op, fetchWord s = .ok op ∧ s.pc.toNat + 1 < 4096 ∧
      ((decodeWord op = none ∧ stepWith p rnd s = .fault (.unknownOpcode op s.pc)) ∨
        ∃ i, decodeWord op = some i ∧ stepWith p rnd s = execWith p rnd i s) := by
  by_cases h : 4096 ≤ s.pc.toNat + 1
  · exact Or.inl ⟨h, by simp [stepWith, fetchWord_eq, h, raise]⟩
  · refine Or.inr ⟨_, by rw [fetchWord_eq, if_neg h], by omega, ?_⟩
    cases hd : decodeWord (joinBytes (s.readByte s.pc.toNat) (s.readByte (s.pc.toNat + 1))) with
    | none => exact Or.inl ⟨rfl, by simp [stepWith, fetchWord_eq, h, hd, raise]⟩
    | some i => exact Or.inr ⟨i, rfl, by simp [stepWith, fetchWord_eq, h, hd]⟩

end Sys2Proof.Machine
end

