-- ==== Sys2Proof/Laws/PerInstr.lean ====
section
/-! SUPPORT. Per instruction: the word of an instruction matches its own row of rule R85. The words are `encode`'s, the masks and
matches the spec's table. -/

namespace Sys2Proof.Laws

/-- The word of `i` matches the row of rule R85 that is `i`'s. -/
def RowMatch.Statement (i : Instr) : Prop :=
  ∀ r ∈ opcodeMap, r.number = i.rowNumber → r.matches (encode i) = true

/-- A row whose number is `k` is the `k`-th of the table. -/
theorem row_of_number (k : Nat) (r : OpcodeRow) (h : r ∈ opcodeMap ∧ r.number = k) : opcodeMap[k - 1]? = some r := by
  obtain ⟨hm, rfl⟩ := h
  revert r
  decide

theorem RowMatch.of_row {i : Instr} {row : OpcodeRow} (hr : opcodeMap[i.rowNumber - 1]? = some row)
    (h : encode i &&& row.mask = row.pattern) : RowMatch.Statement i := by
  intro r hm hn
  obtain rfl : row = r := by
    have := row_of_number _ r ⟨hm, hn⟩
    rw [hr] at this
    exact Option.some.inj this
  simpa [OpcodeRow.matches] using h

theorem nibble_and_ones (n : Nibble) : n &&& 15#4 = n := BitVec.and_allOnes

theorem byte_and_ones (b : Byte) : b &&& 255#8 = b := BitVec.and_allOnes

theorem wordNnn_mask (n1 : Nibble) (nnn : Addr12) : wordNnn n1 nnn &&& 0xF000 = n1 ++ 0x000#12 := by
  have : (0xF000 : Word) = 0xF#4 ++ 0x000#12 := rfl
  rw [this, wordNnn, BitVec.and_append]
  simp [nibble_and_ones]

theorem wordXkk_mask (n1 x : Nibble) (kk : Byte) : wordXkk n1 x kk &&& 0xF000 = n1 ++ 0x0#4 ++ 0x00#8 := by
  have : (0xF000 : Word) = 0xF#4 ++ 0x0#4 ++ 0x00#8 := rfl
  rw [this, wordXkk, BitVec.and_append, BitVec.and_append]
  simp [nibble_and_ones]

theorem wordXkk_mask_low (n1 x : Nibble) (kk : Byte) : wordXkk n1 x kk &&& 0xF0FF = n1 ++ 0x0#4 ++ kk := by
  have : (0xF0FF : Word) = 0xF#4 ++ 0x0#4 ++ 0xFF#8 := rfl
  rw [this, wordXkk, BitVec.and_append, BitVec.and_append]
  simp [nibble_and_ones, byte_and_ones]

theorem wordXyn_mask (n1 x y n : Nibble) : wordXyn n1 x y n &&& 0xF000 = n1 ++ 0x0#4 ++ 0x0#4 ++ 0x0#4 := by
  have : (0xF000 : Word) = 0xF#4 ++ 0x0#4 ++ 0x0#4 ++ 0x0#4 := rfl
  rw [this, wordXyn, BitVec.and_append, BitVec.and_append, BitVec.and_append]
  simp [nibble_and_ones]

theorem wordXyn_mask_low (n1 x y n : Nibble) : wordXyn n1 x y n &&& 0xF00F = n1 ++ 0x0#4 ++ 0x0#4 ++ n := by
  have : (0xF00F : Word) = 0xF#4 ++ 0x0#4 ++ 0x0#4 ++ 0xF#4 := rfl
  rw [this, wordXyn, BitVec.and_append, BitVec.and_append, BitVec.and_append]
  simp [nibble_and_ones]

theorem RowMatch.cls : RowMatch.Statement (.cls) := RowMatch.of_row rfl rfl
theorem RowMatch.ret : RowMatch.Statement (.ret) := RowMatch.of_row rfl rfl
theorem RowMatch.sys (nnn : Addr12) : RowMatch.Statement (.sys nnn) := RowMatch.of_row rfl (wordNnn_mask ..)
theorem RowMatch.jp (nnn : Addr12) : RowMatch.Statement (.jp nnn) := RowMatch.of_row rfl (wordNnn_mask ..)
theorem RowMatch.call (nnn : Addr12) : RowMatch.Statement (.call nnn) := RowMatch.of_row rfl (wordNnn_mask ..)
theorem RowMatch.seVxKk (x : Nibble) (kk : Byte) : RowMatch.Statement (.seVxKk x kk) := RowMatch.of_row rfl (wordXkk_mask ..)
theorem RowMatch.sneVxKk (x : Nibble) (kk : Byte) : RowMatch.Statement (.sneVxKk x kk) := RowMatch.of_row rfl (wordXkk_mask ..)
theorem RowMatch.seVxVy (x y : Nibble) : RowMatch.Statement (.seVxVy x y) := RowMatch.of_row rfl (wordXyn_mask_low ..)
theorem RowMatch.ldVxKk (x : Nibble) (kk : Byte) : RowMatch.Statement (.ldVxKk x kk) := RowMatch.of_row rfl (wordXkk_mask ..)
theorem RowMatch.addVxKk (x : Nibble) (kk : Byte) : RowMatch.Statement (.addVxKk x kk) := RowMatch.of_row rfl (wordXkk_mask ..)
theorem RowMatch.ldVxVy (x y : Nibble) : RowMatch.Statement (.ldVxVy x y) := RowMatch.of_row rfl (wordXyn_mask_low ..)
theorem RowMatch.orVxVy (x y : Nibble) : RowMatch.Statement (.orVxVy x y) := RowMatch.of_row rfl (wordXyn_mask_low ..)
theorem RowMatch.andVxVy (x y : Nibble) : RowMatch.Statement (.andVxVy x y) := RowMatch.of_row rfl (wordXyn_mask_low ..)
theorem RowMatch.xorVxVy (x y : Nibble) : RowMatch.Statement (.xorVxVy x y) := RowMatch.of_row rfl (wordXyn_mask_low ..)
theorem RowMatch.addVxVy (x y : Nibble) : RowMatch.Statement (.addVxVy x y) := RowMatch.of_row rfl (wordXyn_mask_low ..)
theorem RowMatch.subVxVy (x y : Nibble) : RowMatch.Statement (.subVxVy x y) := RowMatch.of_row rfl (wordXyn_mask_low ..)
theorem RowMatch.shrVx (x y : Nibble) : RowMatch.Statement (.shrVx x y) := RowMatch.of_row rfl (wordXyn_mask_low ..)
theorem RowMatch.subnVxVy (x y : Nibble) : RowMatch.Statement (.subnVxVy x y) := RowMatch.of_row rfl (wordXyn_mask_low ..)
theorem RowMatch.shlVx (x y : Nibble) : RowMatch.Statement (.shlVx x y) := RowMatch.of_row rfl (wordXyn_mask_low ..)
theorem RowMatch.sneVxVy (x y : Nibble) : RowMatch.Statement (.sneVxVy x y) := RowMatch.of_row rfl (wordXyn_mask_low ..)
theorem RowMatch.ldINnn (nnn : Addr12) : RowMatch.Statement (.ldINnn nnn) := RowMatch.of_row rfl (wordNnn_mask ..)
theorem RowMatch.jpV0 (nnn : Addr12) : RowMatch.Statement (.jpV0 nnn) := RowMatch.of_row rfl (wordNnn_mask ..)
theorem RowMatch.rndVxKk (x : Nibble) (kk : Byte) : RowMatch.Statement (.rndVxKk x kk) := RowMatch.of_row rfl (wordXkk_mask ..)
theorem RowMatch.drw (x y n : Nibble) : RowMatch.Statement (.drw x y n) := RowMatch.of_row rfl (wordXyn_mask ..)
theorem RowMatch.skp (x : Nibble) : RowMatch.Statement (.skp x) := RowMatch.of_row rfl (wordXkk_mask_low ..)
theorem RowMatch.sknp (x : Nibble) : RowMatch.Statement (.sknp x) := RowMatch.of_row rfl (wordXkk_mask_low ..)
theorem RowMatch.ldVxDt (x : Nibble) : RowMatch.Statement (.ldVxDt x) := RowMatch.of_row rfl (wordXkk_mask_low ..)
theorem RowMatch.ldVxK (x : Nibble) : RowMatch.Statement (.ldVxK x) := RowMatch.of_row rfl (wordXkk_mask_low ..)
theorem RowMatch.ldDtVx (x : Nibble) : RowMatch.Statement (.ldDtVx x) := RowMatch.of_row rfl (wordXkk_mask_low ..)
theorem RowMatch.ldStVx (x : Nibble) : RowMatch.Statement (.ldStVx x) := RowMatch.of_row rfl (wordXkk_mask_low ..)
theorem RowMatch.addIVx (x : Nibble) : RowMatch.Statement (.addIVx x) := RowMatch.of_row rfl (wordXkk_mask_low ..)
theorem RowMatch.ldFVx (x : Nibble) : RowMatch.Statement (.ldFVx x) := RowMatch.of_row rfl (wordXkk_mask_low ..)
theorem RowMatch.ldBVx (x : Nibble) : RowMatch.Statement (.ldBVx x) := RowMatch.of_row rfl (wordXkk_mask_low ..)
theorem RowMatch.ldMemVx (x : Nibble) : RowMatch.Statement (.ldMemVx x) := RowMatch.of_row rfl (wordXkk_mask_low ..)
theorem RowMatch.ldVxMem (x : Nibble) : RowMatch.Statement (.ldVxMem x) := RowMatch.of_row rfl (wordXkk_mask_low ..)

end Sys2Proof.Laws
end

