-- ==== Sys2Proof/Tests/Slice0.lean ====
section
/-! SUPPORT. The model's own tests: ill-formed terms, decoding, at most two single steps an instruction, the events, and for every
statement with hypotheses a witness that meets them. Expected values are those of spec/95_test_vectors.md (the vector's id stands
in the comment) or worked by hand from the rule named. -/

namespace Sys2Proof.Tests

open Sys2Proof.Machine Sys2Proof.Claims

/-! ## Helpers -/

/-- The reset state with a word at `PC`. -/
def word (op : Word) : State := State.reset.placeWord op

/-- What a step answers, looked at through one function of the next state. -/
def after {α : Type} (s : State) (f : State → α) : Option α :=
  match step s with
  | .next t => some (f t)
  | .fault _ | .refused _ => none

/-- The error a step answers. -/
def errorOf (s : State) : Option Fault :=
  match step s with
  | .fault e => some e
  | .next _ | .refused _ => none

/-- The state with `SP` at `n` and every slot `w`. -/
def stacked (n : Fin 17) (w : Word) (s : State) : State := { s with sp := n, stack := Vector.replicate 16 w }

/-! ## Well-formedness -/

theorem test_wf_refuses_sys_0E0 : (Instr.sys 0x0E0).wf = false := by decide
theorem test_wf_refuses_sys_0EE : (Instr.sys 0x0EE).wf = false := by decide
theorem test_wf_takes_sys_0E1 : (Instr.sys 0x0E1).wf = true := by decide

/-! ## Decoding: for every constructor a word written out from rule R85's patterns -/

theorem test_decode_flow :
    decodeWord 0x00EE = some .ret ∧ decodeWord 0x0123 = some (.sys 0x123) ∧ decodeWord 0x1204 = some (.jp 0x204) ∧
    decodeWord 0x220A = some (.call 0x20A) ∧ decodeWord 0xBFFF = some (.jpV0 0xFFF) := by decide

theorem test_decode_skip :
    decodeWord 0x3F01 = some (.seVxKk 15 0x01) ∧ decodeWord 0x4211 = some (.sneVxKk 2 0x11) ∧
    decodeWord 0x5340 = some (.seVxVy 3 4) ∧ decodeWord 0x9340 = some (.sneVxVy 3 4) ∧
    decodeWord 0xE59E = some (.skp 5) ∧ decodeWord 0xE5A1 = some (.sknp 5) := by decide

theorem test_decode_alu :
    decodeWord 0x6A2F = some (.ldVxKk 10 0x2F) ∧ decodeWord 0x7102 = some (.addVxKk 1 0x02) ∧
    decodeWord 0x8120 = some (.ldVxVy 1 2) ∧ decodeWord 0x8121 = some (.orVxVy 1 2) ∧
    decodeWord 0x8122 = some (.andVxVy 1 2) ∧ decodeWord 0x8123 = some (.xorVxVy 1 2) ∧
    decodeWord 0x8124 = some (.addVxVy 1 2) ∧ decodeWord 0x8125 = some (.subVxVy 1 2) ∧
    decodeWord 0x8126 = some (.shrVx 1 2) ∧ decodeWord 0x8127 = some (.subnVxVy 1 2) ∧
    decodeWord 0x812E = some (.shlVx 1 2) ∧ decodeWord 0xC30F = some (.rndVxKk 3 0x0F) := by decide

theorem test_decode_index_memory :
    decodeWord 0xA2F0 = some (.ldINnn 0x2F0) ∧ decodeWord 0xF21E = some (.addIVx 2) ∧
    decodeWord 0xF029 = some (.ldFVx 0) ∧ decodeWord 0xF033 = some (.ldBVx 0) ∧
    decodeWord 0xF255 = some (.ldMemVx 2) ∧ decodeWord 0xF165 = some (.ldVxMem 1) := by decide

theorem test_decode_display_timers_keys :
    decodeWord 0x00E0 = some .cls ∧ decodeWord 0xD012 = some (.drw 0 1 2) ∧ decodeWord 0xF307 = some (.ldVxDt 3) ∧
    decodeWord 0xF50A = some (.ldVxK 5) ∧ decodeWord 0xF315 = some (.ldDtVx 3) ∧ decodeWord 0xF418 = some (.ldStVx 4) := by
  decide

/-- Vectors E1 to E11. -/
theorem test_decode_unknown :
    [0x8008, 0x800F, 0x5001, 0x9001, 0xE000, 0xE09F, 0xF000, 0xF01F, 0xF075, 0xF085, 0xFFFF].map decodeWord =
      List.replicate 11 none := by decide

/-- By rule R55: the first byte is the high half; one byte is no instruction. -/
theorem test_decode_bytes :
    decode [0x60, 0x05, 0x00] = .ok (.ldVxKk 0 0x05, [0x00]) ∧ decode [0x60] = .error (.truncated [0x60]) ∧
    decode [0x80, 0x08] = .error (.unknownOpcode 0x8008) ∧ encodeBytes (.ldVxKk 0 0x05) = [0x60, 0x05] := by
  refine ⟨rfl, rfl, rfl, by decide⟩

/-! ## Fetch and errors -/

/-- E13, E14, E1. -/
theorem test_fetch_errors :
    errorOf (State.reset.jump 0x0FFF) = some (.outOfBounds .fetch 0x0FFF) ∧
    errorOf (State.reset.jump 0x1000) = some (.outOfBounds .fetch 0x1000) ∧
    errorOf (word 0x8008) = some (.unknownOpcode 0x8008 0x0200) := by decide

/-- E15. -/
theorem test_fetch_last_address :
    after ((State.reset.jump 0x0FFE).placeWord 0x6001) (fun t => (t.reg 0, t.pc)) = some (0x01, 0x1000) := by decide

/-! ## Control transfer and the stack -/

/-- F1. -/
theorem test_sys : after (word 0x0123) State.pc = some 0x0202 := by decide
/-- F7. -/
theorem test_jp_odd : after (word 0x1301) State.pc = some 0x0301 := by decide
/-- F15. -/
theorem test_jpV0_unmasked : after ((word 0xBFFF).setReg 0 0xFF) State.pc = some 0x10FE := by decide
/-- F9. -/
theorem test_call_last_slot :
    after (stacked 15 0 ((State.reset.jump 0x0FFE).placeWord 0x2300)) (fun t => (t.pc, t.sp, t.stack[15])) =
      some (0x0300, 16, 0x1000) := by decide
/-- F10. -/
theorem test_call_overflow : errorOf (stacked 16 0 (word 0x2200)) = some (.stackOverflow 0x0200) := by decide
/-- F12. -/
theorem test_ret : after (stacked 16 0x1000 (word 0x00EE)) (fun t => (t.pc, t.sp, t.stack[15])) =
    some (0x1000, 15, 0x1000) := by decide
/-- F13, at the reset PC. -/
theorem test_ret_underflow : errorOf (word 0x00EE) = some (.stackUnderflow 0x0200) := by decide

/-! ## Skips -/

/-- K3. -/
theorem test_seVxKk : after ((word 0x3F01).setReg 15 0x01) State.pc = some 0x0204 := by decide
/-- K5, at the reset PC. -/
theorem test_sneVxKk : after ((word 0x4210).setReg 2 0x10) State.pc = some 0x0202 := by decide
/-- K8. -/
theorem test_seVxVy_same : after ((word 0x5330).setReg 3 0x99) State.pc = some 0x0204 := by decide
/-- K9, at the reset PC. -/
theorem test_sneVxVy : after (((word 0x9340).setReg 3 1).setReg 4 2) State.pc = some 0x0204 := by decide
/-- K11, at the reset PC. -/
theorem test_skp : after (((word 0xE59E).setReg 5 3).setKeys 0x0008) State.pc = some 0x0204 := by decide
/-- K15. -/
theorem test_skp_not_reduced :
    errorOf (((word 0xE59E).setReg 5 0x10).setKeys 0x0001) = some (.outOfBounds .key 0x10) := by decide
/-- K13, at the reset PC. -/
theorem test_sknp : after (((word 0xE5A1).setReg 5 3).setKeys 0x0008) State.pc = some 0x0202 := by decide
/-- K16. -/
theorem test_sknp_error : errorOf ((word 0xE5A1).setReg 5 0xFF) = some (.outOfBounds .key 0xFF) := by decide

/-! ## Register loads and the ALU -/

/-- S8. -/
theorem test_ldVxKk : after (word 0x6005) (fun t => (t.reg 0, t.pc)) = some (0x05, 0x0202) := by decide
/-- A3. -/
theorem test_addVxKk_no_flag :
    after (((word 0x7102).setReg 1 0xFF).setReg 15 0x77) (fun t => (t.reg 1, t.reg 15)) = some (0x01, 0x77) := by decide
/-- A6. -/
theorem test_ldVxVy : after ((word 0x8120).setReg 2 0x3C) (fun t => t.reg 1) = some 0x3C := by decide
/-- A7. -/
theorem test_orVxVy : after ((((word 0x8121).setReg 1 0x0F).setReg 2 0xF0).setReg 15 0x77) (fun t => (t.reg 1, t.reg 15)) =
    some (0xFF, 0x77) := by decide
/-- A8. -/
theorem test_andVxVy : after ((((word 0x8122).setReg 1 0x3C).setReg 2 0x0F).setReg 15 0x77) (fun t => (t.reg 1, t.reg 15)) =
    some (0x0C, 0x77) := by decide
/-- A9. -/
theorem test_xorVxVy : after ((((word 0x8123).setReg 1 0xFF).setReg 2 0x0F).setReg 15 0x77) (fun t => (t.reg 1, t.reg 15)) =
    some (0xF0, 0x77) := by decide
/-- A13. -/
theorem test_addVxVy_carry : after (((word 0x8124).setReg 1 0xFF).setReg 2 0x01) (fun t => (t.reg 1, t.reg 15)) =
    some (0x00, 0x01) := by decide
/-- A17. -/
theorem test_addVxVy_flag_stays : after (((word 0x8F14).setReg 15 0x10).setReg 1 0x20) (fun t => t.reg 15) = some 0x00 := by
  decide
/-- A20. -/
theorem test_subVxVy_borrow : after (((word 0x8125).setReg 1 0x10).setReg 2 0x20) (fun t => (t.reg 1, t.reg 15)) =
    some (0xF0, 0x00) := by decide
/-- A24. -/
theorem test_subVxVy_old_flag : after (((word 0x81F5).setReg 1 0x05).setReg 15 0x07) (fun t => (t.reg 1, t.reg 15)) =
    some (0xFE, 0x00) := by decide
/-- A26. -/
theorem test_shrVx_ignores_y : after ((((word 0x8126).setReg 1 0x04).setReg 2 0xFF).setReg 15 1) (fun t => (t.reg 1, t.reg 15)) =
    some (0x02, 0x00) := by decide
/-- A28. -/
theorem test_shrVx_flag_stays : after ((word 0x8F06).setReg 15 0x05) (fun t => t.reg 15) = some 0x01 := by decide
/-- A31. -/
theorem test_subnVxVy : after (((word 0x8127).setReg 1 0x20).setReg 2 0x10) (fun t => (t.reg 1, t.reg 15)) =
    some (0xF0, 0x00) := by decide
/-- A33. -/
theorem test_shlVx : after ((word 0x810E).setReg 1 0x81) (fun t => (t.reg 1, t.reg 15)) = some (0x02, 0x01) := by decide
/-- A36. -/
theorem test_shlVx_flag_stays : after ((word 0x8F0E).setReg 15 0x81) (fun t => t.reg 15) = some 0x01 := by decide
/-- A37. -/
theorem test_rnd_of_the_event : (applyEvent Default.params (.step 0xA7) (word 0xC30F)).2.reg 3 = 0x07 := by decide
/-- A38, for the step itself: kk = 0 gives 0 whatever the byte is. -/
theorem test_rnd_masked : ∃ t, exec (.rndVxKk 3 0) ((word 0xC300).setReg 3 0x55) = .next t ∧ t.reg 3 = 0x00 :=
  ⟨_, rfl, by simp [rndState]⟩

/-! ## The index register and memory -/

/-- I2. -/
theorem test_ldINnn : after ((word 0xAFFF).setI 0x1234) State.i = some 0x0FFF := by decide
/-- I4. -/
theorem test_addIVx_wraps : after (((word 0xF21E).setI 0xFFFF).setReg 2 1) (fun t => (t.i, t.reg 15)) = some (0x0000, 0x00) := by
  decide
/-- I7. -/
theorem test_ldFVx_not_reduced : after ((word 0xF029).setReg 0 0xFF) State.i = some 0x04FB := by decide
/-- I12. -/
theorem test_ldBVx_last_base : after (((word 0xF033).setReg 0 0x7B).setI 0x0FFD)
    (fun t => [0xFFD, 0xFFE, 0xFFF].map t.readByte) = some [1, 2, 3] := by decide
/-- I15. -/
theorem test_ldBVx_no_wrap : errorOf (((word 0xF033).setReg 0 0x7B).setI 0xFFFF) = some (.outOfBounds .data 0xFFFF) := by decide
/-- I16. -/
theorem test_ldMemVx : after (((((word 0xF255).setReg 0 0x11).setReg 2 0x33).setReg 3 0x44).setI 0x0400)
    (fun t => ([0x400, 0x402, 0x403].map t.readByte, t.i)) = some ([0x11, 0x33, 0x00], 0x0400) := by decide
/-- I20. -/
theorem test_ldMemVx_error : errorOf ((word 0xFF55).setI 0x0FF1) = some (.outOfBounds .data 0x1000) := by decide
/-- I22. -/
theorem test_ldVxMem : after (((((word 0xF265).storeBytes 0x300 [2, 5, 4, 7]).setReg 3 0x99).setI 0x0300))
    (fun t => ([t.reg 0, t.reg 1, t.reg 2, t.reg 3], t.i)) = some ([2, 5, 4, 0x99], 0x0300) := by decide
/-- I25. -/
theorem test_ldVxMem_last : after (((word 0xF065).storeBytes 0xFFF [0x42]).setI 0x0FFF) (fun t => t.reg 0) = some 0x42 := by
  decide

/-! ## The framebuffer -/

/-- D1, two of its cells. -/
theorem test_cls : after (((word 0x00E0).setFb (drawCells [0, 2047] false blankFrame).2).setReg 15 0x77)
    (fun t => (t.cell 0, t.cell 2047, t.reg 15)) = some (false, false, 0x77) := by decide
/-- D2: the source's wrap example, with the cells on both sides of it. -/
theorem test_drw_wraps : after ((((word 0xD011).setReg 0 0x3E).storeBytes 0x300 [0xFF]).setI 0x300)
    (fun t => [61, 62, 63, 0, 5, 6, 64].map t.cell) = some [false, true, true, true, true, false, false] := by decide
/-- By rule R206: sprite byte 0x01 at column 0 lights cell 7 by the default order, and cell 0 by the other. -/
theorem test_drw_bit_order :
    let s := ((word 0xD011).storeBytes 0x300 [0x01]).setI 0x300
    [true, false].map (fun o => [0, 7].map (applyEvent ⟨Default.font, o⟩ (.step 0) s).2.cell) =
      [[false, true], [true, false]] := by decide
/-- D5: a collision, and the cell the sprite does not reach. -/
theorem test_drw_collides :
    after ((((word 0xD011).storeBytes 0x300 [0xFF]).setI 0x300).setFb (drawCells [3, 8] false blankFrame).2)
      (fun t => (t.cell 2, t.cell 3, t.cell 8, t.reg 15)) = some (true, false, true, 1) := by decide

/-! ## Timers and keys -/

/-- T1. -/
theorem test_ldVxDt : after ((word 0xF307).setDt 0x1E) (fun t => (t.reg 3, t.dt)) = some (0x1E, 0x1E) := by decide
/-- T4. -/
theorem test_ldVxK_holds : after (word 0xF00A) id = some (word 0xF00A) := by decide
/-- T6. -/
theorem test_ldVxK_least : after ((word 0xF50A).setKeys 0x8084) (fun t => (t.reg 5, t.pc)) = some (0x02, 0x0202) := by decide
/-- T2. -/
theorem test_ldDtVx : after ((word 0xF315).setReg 3 0x3C) (fun t => (t.dt, t.st)) = some (0x3C, 0) := by decide
/-- T3. -/
theorem test_ldStVx : after ((word 0xF418).setReg 4 0x02) (fun t => (t.st, t.dt)) = some (0x02, 0) := by decide

/-! ## Events -/

/-- L4, L5, L6. -/
theorem test_load_edges :
    (applyEvent Default.params (.load [0xAA] 4095) State.reset).1 = .ok ∧
    (applyEvent Default.params (.load [0xAA] 4095) State.reset).2.readByte 0xFFF = 0xAA ∧
    (applyEvent Default.params (.load [0xAA] 4096) State.reset).1 = .error (.outOfBounds .load 0x1001) ∧
    (applyEvent Default.params (.load [0xAA, 0xBB] 4095) State.reset).2 = State.reset := by decide
/-- L8, and the floor at 0. -/
theorem test_tick : ((State.reset.setDt 2).tick.dt, (State.reset.setDt 2).tick.st) = (1, 0) := by decide
/-- L2, and the font's first byte (R283). -/
theorem test_reset_event :
    ((word 0xFFFF).resetEvent Default.font 0x0600).pc = 0x0600 ∧ ((word 0xFFFF).resetEvent Default.font 0x0600).readByte 0x200 = 0 ∧
    State.reset.readByte 0 = 0xF0 ∧ State.reset.readByte 79 = 0x80 ∧ State.reset.readByte 80 = 0 := by decide +kernel
/-- By rule R280: the FONT parameter's default is what unlisted memory reads as, so the reset event lists nothing. -/
theorem test_reset_event_is_reset : State.reset.resetEvent Default.font Config.entry = State.reset := by decide +kernel
/-- By rules R8 and R283: a reset event under another FONT writes that FONT's bytes. -/
theorem test_reset_event_other_font :
    let t := (applyEvent ⟨Default.font.set 0 0xAA, true⟩ (.reset 0x0200) (word 0xFFFF)).2
    (t.readByte 0, t.readByte 1, t.readByte 80) = (0xAA, 0x90, 0x00) := by decide +kernel
/-- By rule R241. -/
theorem test_result_codes :
    [Reply.ok, .error (.outOfBounds .key 16), .error (.stackOverflow 0), .error (.stackUnderflow 0),
      .error (.unknownOpcode 0 0)].map Reply.code = [some 0, some 1, some 2, some 3, some 4] := by decide
/-- By the host's numbering: the word of a table row is what the next step runs. -/
theorem test_withFetchWord : after (State.reset.withFetchWord 16 0x6005) (fun t => t.reg 0) = some 0x05 ∧
    after ((State.reset.jump 0x1000).withFetchWord 16 0x6005) (fun t => t.reg 0) = some 0x05 := by decide

/-! ## Witnesses: for each statement with hypotheses, a state and operands that meet them -/

theorem witness_DecodeOfEncodeIsTheInstruction : (Instr.drw 15 15 15).wf = true ∧ (Instr.sys 0xFFF).wf = true := by decide
theorem witness_EncodeOfDecodeIsTheWord : decodeWord 0xDFFF = some (.drw 15 15 15) := by decide
theorem witness_DecoderFindsTheRowOfTheOpcodeMap :
    (∃ r ∈ opcodeMap, ∃ q ∈ opcodeMap, r.number < q.number ∧ r.matches 0x00EE = true ∧ q.matches 0x00EE = true) ∧
    fetchWord (word 0x8008) = .ok 0x8008 ∧ ∀ r ∈ opcodeMap, r.matches 0x8008 = false :=
  ⟨⟨⟨2, 0xFFFF, 0x00EE⟩, by decide, ⟨3, 0xF000, 0x0000⟩, by decide⟩, rfl, by decide⟩
theorem witness_MajorOpcodeZeroHasNoUnknownWord :
    (0x0000 : Word).toNat < 0x1000 ∧ (0x0FFF : Word).toNat < 0x1000 ∧ (0x0FFF : Word) ≠ 0x00E0 ∧ (0x0FFF : Word) ≠ 0x00EE := by
  decide
theorem witness_FieldsComeStraightFromTheWord :
    decodeWord 0xD12F = some (.drw 1 2 15) ∧ decodeWord 0x3AFF = some (.seVxKk 10 0xFF) ∧ decodeWord 0xBFFF = some (.jpV0 0xFFF) ∧
    xOf (.drw 1 2 15) = some 1 ∧ yOf (.drw 1 2 15) = some 2 ∧ nOf (.drw 1 2 15) = some 15 ∧
    kkOf (.seVxKk 10 0xFF) = some 0xFF ∧ nnnOf (.jpV0 0xFFF) = some 0xFFF := by decide
theorem witness_StepRunsTheDecodedInstruction :
    4096 ≤ (State.reset.jump 0x0FFF).pc.toNat + 1 ∧ (State.reset.jump 0x0FFE).pc.toNat + 1 < 4096 ∧
    (0xFFFF : Word).toNat =
      ((word 0xFFFF).readByte (word 0xFFFF).pc.toNat).toNat * 256 +
        ((word 0xFFFF).readByte ((word 0xFFFF).pc.toNat + 1)).toNat ∧ decodeWord 0xFFFF = none ∧
    (0x6005 : Word).toNat =
      ((word 0x6005).readByte (word 0x6005).pc.toNat).toNat * 256 +
        ((word 0x6005).readByte ((word 0x6005).pc.toNat + 1)).toNat ∧ decodeWord 0x6005 = some (.ldVxKk 0 5) := by decide
theorem witness_StepEventRunsTheDecodedInstruction :
    4096 ≤ (State.reset.jump 0x0FFF).pc.toNat + 1 ∧ (fetchWord (word 0xFFFF) = .ok 0xFFFF ∧ decodeWord 0xFFFF = none) ∧
    (fetchWord (word 0x00EE) = .ok 0x00EE ∧ decodeWord 0x00EE = some .ret ∧ ∃ e, execWith Default.params 7 .ret (word 0x00EE) = .fault e) ∧
    fetchWord (word 0xC30F) = .ok 0xC30F ∧ decodeWord 0xC30F = some (.rndVxKk 3 0x0F) ∧
    ∃ t, execWith Default.params 7 (.rndVxKk 3 0x0F) (word 0xC30F) = .next t :=
  ⟨by decide, ⟨rfl, by decide⟩, ⟨rfl, by decide, ⟨_, rfl⟩⟩, rfl, by decide, ⟨_, rfl⟩⟩
theorem witness_PcIsWrittenTheOneWayOfItsInstruction :
    (∃ t, step (word 0x3000) = .next t) ∧
    (applyEvent Default.params (.step 0) (word 0xFFFF)).1 = .error (.unknownOpcode 0xFFFF 0x0200) := ⟨⟨_, rfl⟩, by decide⟩
theorem witness_StateChangesOnlyByItsWriters :
    (∃ t, exec (.ldMemVx 15) (State.reset.setI 0x0FF0) = .next t) ∧ ∃ t, exec (.drw 1 2 0) State.reset = .next t :=
  ⟨⟨_, rfl⟩, ⟨_, rfl⟩⟩
theorem witness_Commits : Commits (.rndVxKk 3 0) State.reset (rndState 7 3 0 State.reset) ∧
    StepCommits (word 0xC300) (rndState 7 3 0 (word 0xC300)) :=
  ⟨Or.inr ⟨Default.params, 7, rfl⟩, Or.inr ⟨Default.params, 7, rfl⟩⟩
theorem witness_FlagInstructionsLeaveZeroOrOne :
    (Instr.shrVx 15 0) ∈ [Instr.addVxVy 15 0, .subVxVy 15 0, .shrVx 15 0, .subnVxVy 15 0, .shlVx 15 0, .drw 15 0 0] ∧
    ∃ t, exec (.shrVx 15 0) (State.reset.setReg 15 0xFF) = .next t := ⟨by decide, ⟨_, rfl⟩⟩
theorem witness_PcStaysEvenUnlessSentToAnOddAddress :
    (word 0x1204).pc.toNat % 2 = 0 ∧ (∀ k : Fin 16, (word 0x1204).stack[k].toNat % 2 = 0) ∧
    (∃ t, step (word 0x1204) = .next t) ∧ fetchWord (word 0x1204) = .ok 0x1204 ∧ decodeWord 0x1204 = some (.jp 0x204) ∧
    (0x204 : Addr12).toNat % 2 = 0 := ⟨by decide, by decide, ⟨_, rfl⟩, rfl, by decide, by decide⟩
theorem witness_StepKeepsMemoryCanonical :
    State.reset.MemoryCanonical ∧ ∃ t, step State.reset = .next t := ⟨State.reset_mem_wf, ⟨_, rfl⟩⟩
theorem witness_StepKeepsReturnAddressesAndPcBounded :
    (∀ k : Fin 16, (stacked 16 0x1000 (word 0x00EE)).stack[k].toNat ≤ 0x1000) ∧
    ∃ t, step (stacked 16 0x1000 (word 0x00EE)) = .next t := ⟨by decide, ⟨_, rfl⟩⟩
theorem witness_EveryScheduleKeepsTheInvariants :
    State.reset.MemoryCanonical ∧ ∀ k : Fin 16, State.reset.stack[k].toNat ≤ 0x1000 := ⟨State.reset_mem_wf, by decide⟩
theorem witness_AnErrorChangesNothing :
    (applyEvent Default.params (.load [0] 4096) State.reset).1 = .error (.outOfBounds .load 4097) ∧
    (applyEvent Default.params (.step 0) (State.reset.jump 0x0FFF)).1 = .error (.outOfBounds .fetch 0x0FFF) := by decide
theorem witness_AFailedStepFailsTheSameWayAgain :
    (applyEvent Default.params (.step 7) (word 0x00EE)).1 = .error (.stackUnderflow 0x0200) := by decide
theorem witness_LoadWritesAllItsBytesOrNone :
    4096 < 4096 + [(0 : Byte)].length ∧ 4095 + [(0 : Byte)].length ≤ 4096 ∧ [(7 : Byte)][0]? = some 7 := by decide
theorem witness_BootMakesTheImageTheFirstInstruction : (0x0FFE : Word).toNat + (([] : List Byte).length + 2) ≤ 4096 := by decide
theorem witness_TimersCountTheTicks :
    Avoids Default.params (fun i => ∃ x, i = .ldDtVx x) [.tick, .step 0, .tick] ((word 0xF418).setDt 2) ∧
    Avoids Default.params (fun i => ∃ x, i = .ldStVx x) [.tick, .step 0, .tick] ((word 0xF315).setSt 2) := by
  have hw : ∀ (w : Word) (s : State) (op : Word) (i j : Instr), fetchWord s = .ok w → decodeWord w = some j →
      fetchWord s = .ok op → decodeWord op = some i → i = j := by
    rintro w s op i j h hd h' hd'
    obtain rfl : w = op := Except.ok.inj (h.symm.trans h')
    exact Option.some.inj (hd'.symm.trans hd)
  refine ⟨⟨by simp, by simp, by simp, fun _ _ op i h hd => ?_, by simp, by simp, trivial⟩,
    ⟨by simp, by simp, by simp, fun _ _ op i h hd => ?_, by simp, by simp, trivial⟩⟩
  · rw [hw 0xF418 _ op i (.ldStVx 4) rfl (by decide) h hd]; simp
  · rw [hw 0xF315 _ op i (.ldDtVx 3) rfl (by decide) h hd]; simp
theorem witness_StoppedAndWaitingStatesStepToThemselves :
    (word 0x1200).Stopped ∧ (word 0xF00A).Waiting := ⟨⟨0x200, rfl, rfl⟩, ⟨0, rfl⟩, rfl⟩
theorem witness_SysIsANoOp : (0xFFF : Addr12) ≠ 0x0E0 ∧ (0xFFF : Addr12) ≠ 0x0EE := by decide
theorem witness_JumpSetsPc : State.reset.pc.toNat = (0x200 : Addr12).toNat := by decide
theorem witness_SoundTimerIsWrittenAndNeverRead :
    (∀ x, Instr.ret ≠ .ldStVx x) ∧ (∃ t, exec .ret (stacked 1 0 State.reset) = .next t) ∧
    exec .ret State.reset = .fault (.stackUnderflow 0x0200) := ⟨by simp, ⟨_, rfl⟩, rfl⟩
theorem witness_CallPushesTheReturnAddress :
    (stacked 15 0 State.reset).sp.val < 16 ∧ (stacked 16 0 State.reset).sp.val = 16 ∧
    (stacked 15 0 (State.reset.jump 0x0FFE)).pc.toNat ≤ 0xFFE := by decide
theorem witness_ReturnPopsTheNewestAddress :
    (stacked 1 0 State.reset).sp.val = (0 : Fin 16).val + 1 ∧ (stacked 16 0 State.reset).sp.val = (15 : Fin 16).val + 1 ∧
    State.reset.sp.val = 0 := by decide
theorem witness_CallThenReturnComesBack :
    (stacked 15 0 (State.reset.jump 0x0FFE)).sp.val < 16 ∧ (stacked 15 0 (State.reset.jump 0x0FFE)).pc.toNat ≤ 0xFFE := by decide
theorem witness_LiteralSkipsCompareTheRegister : State.reset.reg 3 = 0 ∧ State.reset.reg 3 ≠ 1 := by decide
theorem witness_RegisterSkipsCompareTheRegisters :
    fetchWord (word 0x5001) = .ok 0x5001 ∧ (0x5001 : Word).toNat / 4096 = 5 ∧ (0x5001 : Word).toNat % 16 ≠ 0 ∧
    fetchWord (word 0x900F) = .ok 0x900F ∧ (0x900F : Word).toNat / 4096 = 9 ∧ (0x900F : Word).toNat % 16 ≠ 0 :=
  ⟨rfl, by decide, by decide, rfl, by decide, by decide⟩
theorem witness_KeySkipsReadTheKeyOfTheRegister :
    ((State.reset.setReg 5 15).reg 5).toNat ≤ 15 ∧ 15 < ((State.reset.setReg 5 16).reg 5).toNat ∧
    (State.reset.setKeys 0x8000).keys.getLsbD 15 = true ∧ State.reset.keys.getLsbD 15 = false := by decide
theorem witness_AddGivesSumAndCarry : (1 : Nibble) ≠ 15 ∧
    255 < ((State.reset.setReg 1 0xFF).reg 1).toNat + ((State.reset.setReg 2 1).reg 2).toNat := by decide
theorem witness_RandomByteIsMaskedIntoTheRegister : (0x0F : Byte).getLsbD 4 = false := by decide
theorem witness_OnlyRndReadsTheRandomByte :
    (∀ op x kk, fetchWord (word 0x6005) = .ok op → decodeWord op ≠ some (.rndVxKk x kk)) ∧
    (∀ op x y n, fetchWord (word 0x6005) = .ok op → decodeWord op ≠ some (.drw x y n)) ∧
    (∀ op x kk, fetchWord (word 0xD011) = .ok op → decodeWord op ≠ some (.rndVxKk x kk)) ∧
    Default.params.spriteMsbFirst = true := by
  refine ⟨fun op x kk h => ?_, fun op x y n h => ?_, fun op x kk h => ?_, rfl⟩
  · rw [← show 0x6005 = op from Except.ok.inj h, show decodeWord 0x6005 = some (.ldVxKk 0 5) by decide]
    simp
  · rw [← show 0x6005 = op from Except.ok.inj h, show decodeWord 0x6005 = some (.ldVxKk 0 5) by decide]
    simp
  · rw [← show 0xD011 = op from Except.ok.inj h, show decodeWord 0xD011 = some (.drw 0 1 1) by decide]
    simp
theorem witness_DecimalDigitsAreStoredAtI :
    (State.reset.setI 4093).i.toNat + 2 < 4096 ∧ 4096 ≤ (State.reset.setI 4094).i.toNat + 2 := by decide
theorem witness_RegistersAreStoredAtI :
    (State.reset.setI 4080).i.toNat + (15 : Nibble).toNat < 4096 ∧
    4096 ≤ (State.reset.setI 4081).i.toNat + (15 : Nibble).toNat ∧ (15 : Nibble).toNat ≤ (15 : Nibble).toNat := by decide
theorem witness_RegistersAreLoadedFromI :
    (State.reset.setI 4095).i.toNat + (0 : Nibble).toNat < 4096 ∧
    4096 ≤ (State.reset.setI 4096).i.toNat + (0 : Nibble).toNat ∧ (0 : Nibble).toNat < (15 : Nibble).toNat := by decide
theorem witness_StoredRegistersComeBack :
    ∃ t u : State, exec (.ldMemVx 2) ((State.reset.setI 0x400).setReg 0 7) = .next t ∧ u.i = t.i ∧ ∀ a, u.readByte a = t.readByte a :=
  ⟨_, _, rfl, rfl, fun _ => rfl⟩
theorem witness_TheNextFetchSeesAStore :
    (∃ t, exec (.ldMemVx 0) (State.reset.setI 0x203) = .next t ∧ t.pc.toNat + 1 = 0x203) ∧
    (∃ t, exec (.ldMemVx 15) (State.reset.setI 0xFF0) = .next t) ∧
    (∃ t, exec (.ldBVx 0) (State.reset.setI 0x200) = .next t ∧ t.pc.toNat = 0x200 + 2) ∧
    ∃ t, applyEvent Default.params (.load [7] 0x200) State.reset = (.ok, t) ∧ t.pc.toNat + 1 < 4096 :=
  ⟨⟨_, rfl, rfl⟩, ⟨_, rfl⟩, ⟨_, rfl, rfl⟩, ⟨_, rfl, by decide⟩⟩
theorem test_TheNextFetchSeesAStore_overlaid :
    [0x202, 0x203, 0x204].map (overlaid State.reset 0x203 [0x11]) = [0x00, 0x11, 0x00] := by decide
theorem witness_DrawTogglesTheCoveredCells :
    SpriteFits 0 (State.reset.setI 0xFFFF) ∧ SpriteFits 15 (State.reset.setI 0xFF1) ∧
    ¬SpriteFits 15 (State.reset.setI 0xFF2) := by
  unfold SpriteFits; decide
theorem witness_DrawTogglesTheCoveredCells_covered : Covered true 0 0 1 State.reset 3 ∧ ¬Covered true 0 0 1 State.reset 4 := by
  refine ⟨⟨0, by decide, 3, by decide, by decide, by decide⟩, ?_⟩
  rintro ⟨row, hrow, col, hcol, hbit, hj⟩
  obtain rfl : row = 0 := by simpa using hrow
  have h4 : col = 4 := by
    simp only [show (State.reset.reg 0).toNat = 0 by decide] at hj
    omega
  subst h4
  revert hbit
  decide
theorem witness_ASpriteTouchesNoCellTwice : (List.replicate 15 (0xFF : Byte)).length ≤ 15 := by decide
theorem witness_DrawingTwiceRestoresTheFramebuffer :
    (0 : Nibble) ≠ 15 ∧ (1 : Nibble) ≠ 15 ∧
    SpriteFits 5 State.reset := by
  unfold SpriteFits; decide
theorem witness_KeyWaitHoldsOrStoresTheLeastKey :
    (∀ k < 16, State.reset.keys.getLsbD k = false) ∧
    (State.reset.setKeys 0x8000).keys.getLsbD 15 = true ∧ ∀ j < 15, (State.reset.setKeys 0x8000).keys.getLsbD j = false := by
  decide

end Sys2Proof.Tests
end

section
/-! SUPPORT. What a commit says: the state that a shared operation, an instruction or a step of either kind hands over. -/

namespace Sys2Proof.Machine

variable {s t u : State}

/-! ### `PC` where an instruction can be fetched (rules R29, R80) -/

theorem advance_pc_toNat (hpc : s.pc.toNat + 1 < 4096) : s.advance.pc.toNat = s.pc.toNat + 2 := by
  simp only [State.advance_pc, BitVec.toNat_add, BitVec.toNat_ofNat]; omega

/-- A skip by a Boolean test of `p` (rules R90, R130). -/
theorem skipIf_pc_toNat (hpc : s.pc.toNat + 1 < 4096) {c : Bool} {p : Prop} [Decidable p] (hc : c = true ↔ p) :
    (s.skipIf c).pc.toNat = s.pc.toNat + if p then 4 else 2 := by
  simp only [State.skipIf_pc, hc]
  split <;> simp only [BitVec.toNat_add, BitVec.toNat_ofNat] <;> omega

@[simp] theorem address_toNat (nnn : Addr12) : (address nnn).toNat = nnn.toNat :=
  BitVec.toNat_setWidth_of_le (by omega)

@[simp] theorem widen_toNat (b : Byte) : (widen b).toNat = b.toNat := BitVec.toNat_setWidth_of_le (by omega)

/-- A literal address plus a register never passes 16 bits (rule R116). -/
theorem address_add_widen_toNat (nnn : Addr12) (b : Byte) : (address nnn + widen b).toNat = nnn.toNat + b.toNat := by
  have := nnn.isLt
  have := b.isLt
  rw [BitVec.toNat_add, address_toNat, widen_toNat]
  omega

/-! ### Everything an instruction with a check of its own can do -/

theorem withData_next {len : Nat} (h : withData s len u = .next t) : u = t := by
  rw [withData_eq] at h
  split at h
  · exact Host.Outcome.next.inj h
  · cases h

theorem withKey_next {x : Nibble} (h : withKey s x u = .next t) : u = t := by
  rw [withKey_eq] at h
  split at h
  · cases h
  · exact Host.Outcome.next.inj h

/-- A return goes to the newest slot, or faults where there is none (rule R111). -/
theorem execRet_cases (s : State) :
    (s.sp.val = 0 ∧ execRet s = .fault (.stackUnderflow s.pc)) ∨
    ∃ k : Fin 16, s.sp.val = k.val + 1 ∧
      execRet s = .next (State.jump { s with sp := k.castSucc } s.stack[k]) := by
  rcases State.pop?_eq s with ⟨hsp, hp⟩ | ⟨hsp, hp⟩
  · exact Or.inl ⟨hsp, by rw [execRet, hp]; rfl⟩
  · exact Or.inr ⟨⟨s.sp.val - 1, by omega⟩, (Nat.sub_add_cancel hsp).symm, by rw [execRet, hp]; rfl⟩

/-- A call pushes and goes to `nnn`, or faults where all sixteen slots are live (rule R114). -/
theorem execCall_cases (s : State) (nnn : Addr12) :
    (s.sp.val = 16 ∧ execCall nnn s = .fault (.stackOverflow s.pc)) ∨
    ∃ h : s.sp.val < 16, execCall nnn s = .next (State.jump
      { s with stack := s.stack.set s.sp.val (s.pc + 2#16) h, sp := ⟨s.sp.val + 1, Nat.succ_lt_succ h⟩ }
      (address nnn)) := by
  rcases State.push?_eq s (s.pc + 2#16) with ⟨hsp, hp⟩ | ⟨hsp, hp⟩
  · exact Or.inl ⟨hsp, by rw [execCall, hp]; rfl⟩
  · exact Or.inr ⟨hsp, by rw [execCall, hp]⟩

/-- The key wait holds while no key is pressed, and else stores the least one (rule R222). -/
theorem execLdVxK_cases (s : State) (x : Nibble) :
    (s.keys = 0 ∧ execLdVxK x s = .next s) ∨
    ∃ k < 16, s.keys.getLsbD k = true ∧ (∀ j < k, s.keys.getLsbD j = false) ∧
      execLdVxK x s = .next (s.setReg x (BitVec.ofNat 8 k)).advance := by
  rcases leastKey_eq s.keys with ⟨hl, hkeys⟩ | ⟨k, hk, hl, hdown, hleast⟩
  · exact Or.inl ⟨hkeys, by rw [execLdVxK, hl]⟩
  · exact Or.inr ⟨k, hk, hdown, hleast, by rw [execLdVxK, hl]⟩

/-! ### Steps and events -/

/-- A step of an event that commits ran an instruction. -/
theorem stepWith_next {p : Params} {rnd : Byte} (h : stepWith p rnd s = .next t) :
    ∃ op i, fetchWord s = .ok op ∧ s.pc.toNat + 1 < 4096 ∧ decodeWord op = some i ∧ execWith p rnd i s = .next t := by
  rcases stepWith_cases s p rnd with ⟨-, hs⟩ | ⟨op, hf, hpc, ⟨-, hs⟩ | ⟨i, hi, hs⟩⟩
  · rw [hs] at h; cases h
  · rw [hs] at h; cases h
  · exact ⟨op, i, hf, hpc, hi, hs ▸ h⟩

/-- An error is settled by keeping the state (rule R245). -/
theorem settle_state_of_error {r : StepResult} {e : Fault} (h : (settle s r).1 = .error e) : (settle s r).2 = s := by
  cases r with
  | next t => cases h
  | fault e => rfl
  | refused e => rfl

end Sys2Proof.Machine

namespace Sys2Proof.Claims

open Sys2Proof.Machine

/-- A step of either kind commits by committing the instruction that its word decodes to. -/
theorem StepCommits.commits {s t : State} (h : StepCommits s t) :
    ∃ op i, fetchWord s = .ok op ∧ s.pc.toNat + 1 < 4096 ∧ decodeWord op = some i ∧ Commits i s t := by
  rcases h with h | ⟨p, rnd, h⟩
  · obtain ⟨op, i, hf, hpc, hi, he⟩ := step_next h
    exact ⟨op, i, hf, hpc, hi, Or.inl he⟩
  · obtain ⟨op, i, hf, hpc, hi, he⟩ := stepWith_next h
    exact ⟨op, i, hf, hpc, hi, Or.inr ⟨p, rnd, he⟩⟩

end Sys2Proof.Claims
end

section
/-! PROOFS. O10: the one way that each instruction writes `PC`. -/

namespace Sys2Proof.Proofs

open Sys2Proof.Machine Sys2Proof.Claims

section

variable {s t u : State} (hpc : s.pc.toNat + 1 < 4096)
include hpc

/-- The sequential write of `PC`: an answer that advances from a state with `PC` as in `s`. -/
theorem pc_of_next_advance (h : (.next u.advance : StepResult) = .next t) (hu : u.pc = s.pc) :
    t.pc.toNat = s.pc.toNat + 2 := by
  obtain rfl := Host.Outcome.next.inj h
  rw [← hu] at hpc ⊢
  exact advance_pc_toNat hpc

/-- The sequential write of `PC` behind a check of the data addresses. -/
theorem pc_of_withData_advance {len : Nat} (h : withData s len u.advance = .next t) (hu : u.pc = s.pc) :
    t.pc.toNat = s.pc.toNat + 2 :=
  pc_of_next_advance hpc (congrArg _ (withData_next h)) hu

/-- The write of `PC` by a skip whose test is that of `p`. -/
theorem pc_of_next_skipIf {c : Bool} {p : Prop} [Decidable p] (h : (.next (s.skipIf c) : StepResult) = .next t)
    (hc : c = true ↔ p) : t.pc.toNat = s.pc.toNat + if p then 4 else 2 := by
  obtain rfl := Host.Outcome.next.inj h
  exact skipIf_pc_toNat hpc hc

/-- The write of `PC` by a skip behind a check of the key number. -/
theorem pc_of_withKey_skipIf {x : Nibble} {c : Bool} {p : Prop} [Decidable p] (h : withKey s x (s.skipIf c) = .next t)
    (hc : c = true ↔ p) : t.pc.toNat = s.pc.toNat + if p then 4 else 2 :=
  pc_of_next_skipIf hpc (congrArg _ (withKey_next h)) hc

theorem execLdVxK_pc {x : Nibble} (h : execLdVxK x s = .next t) :
    t.pc.toNat = s.pc.toNat + if s.keys = 0 then 0 else 2 := by
  rcases execLdVxK_cases s x with ⟨hkeys, hx⟩ | ⟨k, -, hdown, -, hx⟩
  · obtain rfl := Host.Outcome.next.inj (hx.symm.trans h)
    rw [if_pos hkeys, Nat.add_zero]
  · have hkeys : s.keys ≠ 0 := fun h0 => by simp [h0] at hdown
    rw [if_neg hkeys]
    exact pc_of_next_advance hpc (hx.symm.trans h) rfl

/-- An instruction that commits in `exec` writes `PC` in its one way. -/
theorem exec_pcWritten {i : Instr} (h : exec i s = .next t) : PcWritten i s t := by
  cases i with
  | jp nnn =>
    obtain rfl := Host.Outcome.next.inj h
    exact address_toNat nnn
  | jpV0 nnn =>
    obtain rfl := Host.Outcome.next.inj h
    exact address_add_widen_toNat nnn (s.reg 0)
  | call nnn =>
    rcases execCall_cases s nnn with ⟨-, hx⟩ | ⟨_, hx⟩
    · cases hx.symm.trans h
    · obtain rfl := Host.Outcome.next.inj (hx.symm.trans h)
      exact address_toNat nnn
  | ret =>
    rcases execRet_cases s with ⟨-, hx⟩ | ⟨k, hk, hx⟩
    · cases hx.symm.trans h
    · obtain rfl := Host.Outcome.next.inj (hx.symm.trans h)
      exact ⟨k, hk, rfl⟩
  | seVxKk | seVxVy => exact pc_of_next_skipIf hpc h beq_iff_eq
  | sneVxKk | sneVxVy => exact pc_of_next_skipIf hpc h bne_iff_ne
  | skp => exact pc_of_withKey_skipIf hpc h Iff.rfl
  | sknp => exact pc_of_withKey_skipIf hpc h (Bool.not_eq_true' _).to_iff
  | ldVxK => exact execLdVxK_pc hpc h
  | drw | ldBVx | ldMemVx | ldVxMem => exact pc_of_withData_advance hpc h rfl
  | rndVxKk =>
    obtain rfl := Host.Outcome.next.inj h
    exact advance_pc_toNat hpc
  | cls | sys | ldVxKk | addVxKk | ldVxVy | orVxVy | andVxVy | xorVxVy | addVxVy | subVxVy | shrVx | subnVxVy | shlVx
  | ldINnn | ldVxDt | ldDtVx | ldStVx | addIVx | ldFVx => exact pc_of_next_advance hpc h rfl

/-- The random byte and the sprite bit order have no part in `PC`. -/
theorem commits_pcWritten {i : Instr} (h : Commits i s t) : PcWritten i s t := by
  rcases h with h | ⟨p, rnd, h⟩
  · exact exec_pcWritten hpc h
  · rcases execWith_cases s p rnd i with ⟨x, kk, rfl, hx⟩ | ⟨x, y, n, rfl, hx⟩ | ⟨-, -, hx⟩
    · exact pc_of_next_advance hpc (hx.symm.trans h) rfl
    · exact pc_of_withData_advance hpc (hx.symm.trans h) rfl
    · exact exec_pcWritten hpc (hx.symm.trans h)

end

/-- A step that commits writes `PC` in the one way of the instruction it ran (rule R90). -/
theorem stepCommits_pcWritten {s t : State} (h : StepCommits s t) :
    ∃ op i, fetchWord s = .ok op ∧ decodeWord op = some i ∧ PcWritten i s t := by
  obtain ⟨op, i, hf, hpc, hi, hc⟩ := h.commits
  exact ⟨op, i, hf, hi, commits_pcWritten hpc hc⟩

/-- Settles O10: a fetch that succeeds has `PC` at most 0xFFE, so no sum on it wraps, and each instruction's answer is one of
an advance, a skip, a jump or the wait; an error is settled with the state as it was. -/
theorem pcIsWrittenTheOneWayOfItsInstruction : Obligations.PcIsWrittenTheOneWayOfItsInstruction :=
  ⟨fun _ _ h => stepCommits_pcWritten h, fun _ _ _ _ h => congrArg State.pc (settle_state_of_error h)⟩

end Sys2Proof.Proofs
end

section
/-! SUPPORT. The decoder and the table of rule R85: each row read by the fields it fixes, the row of a decoded word, and the
words of major opcode 0; and the step by what its fetch and its decode answer. -/

namespace Sys2Proof

/-! ### The words of each format are told apart by their fields (rule R83) -/

section

variable {n1 m1 x x' y y' n n' : Nibble} {kk kk' : Byte} {nnn nnn' : Addr12}

theorem wordNnn_inj : wordNnn n1 nnn = wordNnn m1 nnn' ↔ n1 = m1 ∧ nnn = nnn' := by
  refine ⟨fun h => ⟨?_, ?_⟩, fun ⟨h1, h2⟩ => by rw [h1, h2]⟩
  · simpa using congrArg nibble1 h
  · simpa using congrArg fieldNnn h

theorem wordXkk_inj : wordXkk n1 x kk = wordXkk m1 x' kk' ↔ n1 = m1 ∧ x = x' ∧ kk = kk' := by
  refine ⟨fun h => ⟨?_, ?_, ?_⟩, fun ⟨h1, hx, hk⟩ => by rw [h1, hx, hk]⟩
  · simpa using congrArg nibble1 h
  · simpa using congrArg fieldX h
  · simpa using congrArg fieldKk h

theorem wordXyn_inj : wordXyn n1 x y n = wordXyn m1 x' y' n' ↔ n1 = m1 ∧ x = x' ∧ y = y' ∧ n = n' := by
  refine ⟨fun h => ⟨?_, ?_, ?_, ?_⟩, fun ⟨h1, hx, hy, hn⟩ => by rw [h1, hx, hy, hn]⟩
  · simpa using congrArg nibble1 h
  · simpa using congrArg fieldX h
  · simpa using congrArg fieldY h
  · simpa using congrArg fieldN h

end

/-! ### The rows of rule R85 by the fields that they fix -/

/-- A row that fixes the major opcode alone. -/
def majorRow (number : Nat) (n1 : Nibble) : OpcodeRow := ⟨number, 0xF000, wordNnn n1 0⟩

/-- A row that fixes the major opcode and `n`. -/
def majorNRow (number : Nat) (n1 n : Nibble) : OpcodeRow := ⟨number, 0xF00F, wordXyn n1 0 0 n⟩

/-- A row that fixes the major opcode and `kk`. -/
def majorKkRow (number : Nat) (n1 : Nibble) (kk : Byte) : OpcodeRow := ⟨number, 0xF0FF, wordXkk n1 0 kk⟩

/-- A row that fixes the whole word. -/
def exactRow (number : Nat) (n1 : Nibble) (nnn : Addr12) : OpcodeRow := ⟨number, 0xFFFF, wordNnn n1 nnn⟩

theorem opcodeMap_eq_rows : opcodeMap =
    [exactRow 1 0 0x0E0, exactRow 2 0 0x0EE, majorRow 3 0, majorRow 4 1, majorRow 5 2, majorRow 6 3, majorRow 7 4,
     majorNRow 8 5 0, majorRow 9 6, majorRow 10 7, majorNRow 11 8 0, majorNRow 12 8 1, majorNRow 13 8 2, majorNRow 14 8 3,
     majorNRow 15 8 4, majorNRow 16 8 5, majorNRow 17 8 6, majorNRow 18 8 7, majorNRow 19 8 0xE, majorNRow 20 9 0,
     majorRow 21 0xA, majorRow 22 0xB, majorRow 23 0xC, majorRow 24 0xD, majorKkRow 25 0xE 0x9E, majorKkRow 26 0xE 0xA1,
     majorKkRow 27 0xF 0x07, majorKkRow 28 0xF 0x0A, majorKkRow 29 0xF 0x15, majorKkRow 30 0xF 0x18,
     majorKkRow 31 0xF 0x1E, majorKkRow 32 0xF 0x29, majorKkRow 33 0xF 0x33, majorKkRow 34 0xF 0x55,
     majorKkRow 35 0xF 0x65] := rfl

section

variable (op : Word) (number : Nat) (n1 n : Nibble) (kk : Byte) (nnn : Addr12)

theorem majorRow_matches : (majorRow number n1).matches op = true ↔ nibble1 op = n1 := by
  have hmask : op &&& 0xF000 = wordNnn (nibble1 op) 0 := by
    conv_lhs => rw [← wordNnn_fields op]
    exact Laws.wordNnn_mask ..
  simp only [OpcodeRow.matches, majorRow, hmask, beq_iff_eq, wordNnn_inj, and_true]

theorem majorNRow_matches : (majorNRow number n1 n).matches op = true ↔ nibble1 op = n1 ∧ fieldN op = n := by
  have hmask : op &&& 0xF00F = wordXyn (nibble1 op) 0 0 (fieldN op) := by
    conv_lhs => rw [← wordXyn_fields op]
    exact Laws.wordXyn_mask_low ..
  simp only [OpcodeRow.matches, majorNRow, hmask, beq_iff_eq, wordXyn_inj, true_and]

theorem majorKkRow_matches : (majorKkRow number n1 kk).matches op = true ↔ nibble1 op = n1 ∧ fieldKk op = kk := by
  have hmask : op &&& 0xF0FF = wordXkk (nibble1 op) 0 (fieldKk op) := by
    conv_lhs => rw [← wordXkk_fields op]
    exact Laws.wordXkk_mask_low ..
  simp only [OpcodeRow.matches, majorKkRow, hmask, beq_iff_eq, wordXkk_inj, true_and]

theorem exactRow_matches : (exactRow number n1 nnn).matches op = true ↔ nibble1 op = n1 ∧ fieldNnn op = nnn := by
  have hmask : op &&& 0xFFFF = wordNnn (nibble1 op) (fieldNnn op) :=
    BitVec.and_allOnes.trans (wordNnn_fields op).symm
  simp only [OpcodeRow.matches, exactRow, hmask, beq_iff_eq, wordNnn_inj]

end

/-! ### The row of an instruction within each major opcode that has more than one -/

theorem decodeMajor0_rowNumber (nnn : Addr12) :
    some (decodeMajor0 nnn).rowNumber = if nnn = 0x0E0 then some 1 else if nnn = 0x0EE then some 2 else some 3 := by
  rw [decodeMajor0]
  split_ifs <;> rfl

theorem nibble_eq_ofNat (n : Nibble) : ∃ k < 16, n = BitVec.ofNat 4 k := ⟨n.toNat, nibble_lt n, by simp⟩

theorem decodeMajor8_rowNumber (x y n : Nibble) :
    (decodeMajor8 x y n).map Instr.rowNumber =
      if n = 0 then some 11 else if n = 1 then some 12 else if n = 2 then some 13 else if n = 3 then some 14
      else if n = 4 then some 15 else if n = 5 then some 16 else if n = 6 then some 17 else if n = 7 then some 18
      else if n = 0xE then some 19 else none := by
  obtain ⟨k, hk, rfl⟩ := nibble_eq_ofNat n
  interval_cases k <;> rfl

theorem decodeMajorE_rowNumber (x : Nibble) (kk : Byte) :
    (decodeMajorE x kk).map Instr.rowNumber = if kk = 0x9E then some 25 else if kk = 0xA1 then some 26 else none := by
  simp only [decodeMajorE, apply_ite (Option.map Instr.rowNumber), Option.map_some, Option.map_none, Instr.rowNumber]

theorem decodeMajorF_rowNumber (x : Nibble) (kk : Byte) :
    (decodeMajorF x kk).map Instr.rowNumber =
      if kk = 0x07 then some 27 else if kk = 0x0A then some 28 else if kk = 0x15 then some 29
      else if kk = 0x18 then some 30 else if kk = 0x1E then some 31 else if kk = 0x29 then some 32
      else if kk = 0x33 then some 33 else if kk = 0x55 then some 34 else if kk = 0x65 then some 35 else none := by
  simp only [decodeMajorF, apply_ite (Option.map Instr.rowNumber), Option.map_some, Option.map_none, Instr.rowNumber]

/-! ### The decoder finds the row -/

/-- A search for a row, as a test of the first. -/
theorem number_find?_cons (r : OpcodeRow) (rows : List OpcodeRow) (op : Word) :
    ((r :: rows).find? (fun q => q.matches op)).map OpcodeRow.number =
      if r.matches op = true then some r.number else (rows.find? (fun q => q.matches op)).map OpcodeRow.number := by
  cases h : r.matches op <;> simp [h]

/-- The decoder finds the first row of the table that the word matches (rule R85). -/
theorem decodeWord_rowNumber (op : Word) :
    (decodeWord op).map Instr.rowNumber = (opcodeMap.find? (fun r => r.matches op)).map OpcodeRow.number := by
  simp only [opcodeMap_eq_rows, number_find?_cons, List.find?_nil, Option.map_none, exactRow_matches, majorRow_matches,
    majorNRow_matches, majorKkRow_matches]
  rw [decodeWord]
  obtain ⟨k, hk, hn1⟩ := nibble_eq_ofNat (nibble1 op)
  rw [hn1]
  match k, hk with
  | 0, _ => simpa [decodeFields, exactRow, majorRow] using decodeMajor0_rowNumber (fieldNnn op)
  | 8, _ => simpa [decodeFields, majorNRow] using decodeMajor8_rowNumber _ _ (fieldN op)
  | 14, _ => simpa [decodeFields, majorKkRow] using decodeMajorE_rowNumber _ (fieldKk op)
  | 15, _ => simpa [decodeFields, majorKkRow] using decodeMajorF_rowNumber _ (fieldKk op)
  | 5, _ | 9, _ => simp [decodeFields, majorNRow, Instr.rowNumber]
  | 1, _ | 2, _ | 3, _ | 4, _ | 6, _ | 7, _ | 10, _ | 11, _ | 12, _ | 13, _ =>
    simp [decodeFields, majorRow, Instr.rowNumber]
  | _ + 16, hk => omega

/-- A word that decodes matches the row of the instruction that it decodes to. -/
theorem decodeWord_matches {op : Word} {i : Instr} (h : decodeWord op = some i) :
    ∃ r ∈ opcodeMap, r.number = i.rowNumber ∧ r.matches op = true := by
  have hrow := decodeWord_rowNumber op
  rw [h, Option.map_some, eq_comm, Option.map_eq_some_iff] at hrow
  obtain ⟨r, hfind, hnumber⟩ := hrow
  exact ⟨r, List.mem_of_find?_eq_some hfind, hnumber, List.find?_some (p := fun q : OpcodeRow => q.matches op) hfind⟩

/-- A word that matches no row is no instruction (rule R87). -/
theorem decodeWord_eq_none_of_no_match {op : Word} (h : ∀ r ∈ opcodeMap, r.matches op = false) : decodeWord op = none := by
  have hfind : opcodeMap.find? (fun r => r.matches op) = none :=
    List.find?_eq_none.mpr fun r hr => Bool.eq_false_iff.mp (h r hr)
  simpa [hfind] using decodeWord_rowNumber op

/-- Two rows that one word matches agree on the bits that both of them fix. -/
theorem OpcodeRow.agree_of_matches {r q : OpcodeRow} {op : Word} (hr : r.matches op = true) (hq : q.matches op = true) :
    r.pattern &&& q.mask = q.pattern &&& r.mask := by
  rw [OpcodeRow.matches, beq_iff_eq] at hr hq
  rw [← hr, ← hq, BitVec.and_assoc, BitVec.and_assoc, BitVec.and_comm r.mask]

/-- Two rows that agree on the bits that both of them fix are `00E0` or `00EE`, and `0nnn` (rules R85, R86). -/
theorem opcodeMap_disjoint : ∀ r ∈ opcodeMap, ∀ q ∈ opcodeMap, r.number < q.number →
    r.pattern &&& q.mask = q.pattern &&& r.mask → r.number ≤ 2 ∧ q.number = 3 := by decide

/-! ### Major opcode 0 (rule R86) -/

theorem decodeWord_of_major0 {op : Word} (h : nibble1 op = 0) : decodeWord op = some (decodeMajor0 (fieldNnn op)) := by
  rw [decodeWord, h]
  rfl

theorem nibble1_eq_zero_iff (op : Word) : nibble1 op = 0 ↔ op.toNat < 0x1000 := by
  rw [← BitVec.toNat_inj, nibble1_toNat]
  change op.toNat / 4096 = 0 ↔ _
  omega

theorem decodeMajor0_wf (nnn : Addr12) : (decodeMajor0 nnn).wf = true := by
  rw [decodeMajor0]
  split_ifs with hcls hret
  · rfl
  · rfl
  · simpa [Instr.wf] using ⟨hcls, hret⟩

/-- What the decoder answers is well-formed: the row of `0nnn` is in major opcode 0, where `00E0` and `00EE` come first. -/
theorem decodeWord_wf {op : Word} {i : Instr} (h : decodeWord op = some i) : i.wf = true := by
  cases i with
  | sys nnn =>
    obtain ⟨r, hr, hnumber, hmatch⟩ := decodeWord_matches h
    obtain rfl : majorRow 3 0 = r := Option.some.inj (Laws.row_of_number 3 r ⟨hr, hnumber⟩)
    rw [decodeWord_of_major0 ((majorRow_matches ..).mp hmatch)] at h
    exact Option.some.inj h ▸ decodeMajor0_wf _
  | _ => rfl

end Sys2Proof

namespace Sys2Proof.Machine

/-! ### The step by what its fetch and its decode answer (rules R42, R80) -/

section

variable {s : State} {op : Word}

theorem step_of_pc_past_end (h : 4096 ≤ s.pc.toNat + 1) : step s = .fault (.outOfBounds .fetch s.pc.toNat) := by
  simp only [step, fetchWord_eq, if_pos h, raise]

theorem step_of_unknown (hf : fetchWord s = .ok op) (hd : decodeWord op = none) :
    step s = .fault (.unknownOpcode op s.pc) := by
  simp only [step, hf, hd, raise]

theorem step_of_decoded {i : Instr} (hf : fetchWord s = .ok op) (hd : decodeWord op = some i) : step s = exec i s := by
  simp only [step, hf, hd]

/-- The fetch answers the word whose high byte stands at `PC` and whose low byte stands after it (rules R55, R80). -/
theorem fetchWord_of_toNat (hpc : s.pc.toNat + 1 < 4096)
    (hop : op.toNat = (s.readByte s.pc.toNat).toNat * 256 + (s.readByte (s.pc.toNat + 1)).toNat) :
    fetchWord s = .ok op := by
  obtain rfl := BitVec.eq_of_toNat_eq (hop.trans (joinBytes_toNat _ _).symm)
  rw [fetchWord_eq, if_neg (Nat.not_le.mpr hpc)]

end

end Sys2Proof.Machine

namespace Sys2Proof.Claims

open Sys2Proof.Machine

/-- A jump, a skip or an advance writes `PC` alone. -/
theorem unchanged_jump (m : MayChange) (s : State) (w : Word) : Unchanged m s (s.jump w) :=
  ⟨fun _ _ => rfl, fun _ => rfl, fun _ => ⟨rfl, rfl⟩, fun _ => rfl, fun _ => rfl, fun _ => rfl, fun _ _ => rfl,
    fun _ _ => rfl⟩

/-- `0nnn` is a no-op, whatever `nnn` (rule R112). -/
theorem sys_completes (nnn : Addr12) (s : State) : Completes (.sys nnn) s {} (Advances 2 s) :=
  ⟨s.advance, rfl, unchanged_jump _ s _, fun hpc => advance_pc_toNat (by omega)⟩

end Sys2Proof.Claims
end

section
/-! PROOFS. O3, O4, O8: the decoder against the table of rule R85, major opcode 0, and the step as fetch, decode and `exec`. -/

namespace Sys2Proof.Proofs

open Sys2Proof.Machine Sys2Proof.Claims

/-- Settles O3: the decoder's row is the first that matches, by cases on the major opcode; two rows that one word matches agree
on the bits both fix, which among the 35 holds of `00E0` and `00EE` with `0nnn` alone. -/
theorem decoderFindsTheRowOfTheOpcodeMap : Obligations.DecoderFindsTheRowOfTheOpcodeMap := by
  refine ⟨decodeWord_rowNumber, fun op r hr q hq hlt hmr hmq => ?_, rfl, fun s op hfetch hnone => ?_⟩
  · exact opcodeMap_disjoint r hr q hq hlt (OpcodeRow.agree_of_matches hmr hmq)
  · exact step_of_unknown hfetch (decodeWord_eq_none_of_no_match hnone)

/-- Settles O4: a word below 0x1000 has major opcode 0 and is its own `nnn`, and `0nnn` only advances. -/
theorem majorOpcodeZeroHasNoUnknownWord : Obligations.MajorOpcodeZeroHasNoUnknownWord := by
  refine ⟨rfl, rfl, fun op hop hcls hret => ?_⟩
  have hn1 : nibble1 op = 0 := (nibble1_eq_zero_iff op).mpr hop
  have hword : wordNnn 0 (fieldNnn op) = op := hn1 ▸ wordNnn_fields op
  have hne0 : fieldNnn op ≠ 0x0E0 := fun h => hcls (by rw [← hword, h]; rfl)
  have hneE : fieldNnn op ≠ 0x0EE := fun h => hret (by rw [← hword, h]; rfl)
  refine ⟨fieldNnn op, by rw [fieldNnn_toNat]; omega, ?_, sys_completes _⟩
  rw [decodeWord_of_major0 hn1, decodeMajor0, if_neg hne0, if_neg hneE]

/-- Settles O8: the word that the two bytes at `PC` make is the fetched one, and what the decoder answers is well-formed. -/
theorem stepRunsTheDecodedInstruction : Obligations.StepRunsTheDecodedInstruction := by
  refine fun s => ⟨step_of_pc_past_end, fun hpc op hop => ?_⟩
  have hfetch := fetchWord_of_toNat hpc hop
  exact ⟨step_of_unknown hfetch, fun i hi => ⟨decodeWord_wf hi, step_of_decoded hfetch hi⟩⟩

end Sys2Proof.Proofs
end

section
/-! SUPPORT. A word that decodes has the major opcode of its row; the words of `0nnn` and `1nnn`, and the answer of `1nnn`. -/

namespace Sys2Proof

/-- The pattern of a row fixes the major opcode of the words that match it (rules R82, R85). -/
theorem nibble1_of_matches {r : OpcodeRow} {op : Word} (hr : r ∈ opcodeMap) (h : r.matches op = true) :
    nibble1 op = nibble1 r.pattern := by
  have hmask : ∀ r ∈ opcodeMap, nibble1 r.mask = 15#4 := by decide
  have hop : op &&& r.mask = r.pattern := beq_iff_eq.mp h
  calc nibble1 op = nibble1 op &&& nibble1 r.mask := by rw [hmask r hr, Laws.nibble_and_ones]
    _ = nibble1 (op &&& r.mask) := BitVec.extractLsb'_and.symm
    _ = nibble1 r.pattern := congrArg nibble1 hop

/-- A word that decodes has the major opcode of the row of its instruction. -/
theorem nibble1_of_decodeWord {op : Word} {i : Instr} {r : OpcodeRow} (h : decodeWord op = some i)
    (hrow : opcodeMap[i.rowNumber - 1]? = some r) : nibble1 op = nibble1 r.pattern := by
  obtain ⟨q, hq, hnumber, hmatch⟩ := decodeWord_matches h
  obtain rfl : q = r := Option.some.inj ((Laws.row_of_number _ q ⟨hq, hnumber⟩).symm.trans hrow)
  exact nibble1_of_matches hq hmatch

/-- The words of an instruction have its row's major opcode, so it is enough to tell them among those that have it. -/
theorem decodeWord_eq_iff_of_major {op : Word} {i : Instr} {r : OpcodeRow} {n1 : Nibble} {p : Prop}
    (hrow : opcodeMap[i.rowNumber - 1]? = some r) (hn1 : nibble1 r.pattern = n1)
    (h : nibble1 op = n1 → (decodeWord op = some i ↔ p)) : decodeWord op = some i ↔ nibble1 op = n1 ∧ p := by
  have hmajor (hd : decodeWord op = some i) : nibble1 op = n1 := (nibble1_of_decodeWord hd hrow).trans hn1
  exact ⟨fun hd => ⟨hmajor hd, (h (hmajor hd)).mp hd⟩, fun ⟨hop, hp⟩ => (h hop).mpr hp⟩

theorem eq_wordNnn_iff {op : Word} {n1 : Nibble} {nnn : Addr12} :
    op = wordNnn n1 nnn ↔ nibble1 op = n1 ∧ fieldNnn op = nnn := by
  rw [← wordNnn_inj, wordNnn_fields]

theorem decodeWord_of_major1 {op : Word} (h : nibble1 op = 1) : decodeWord op = some (.jp (fieldNnn op)) := by
  rw [decodeWord, h]
  rfl

theorem decodeMajor0_eq_sys_iff {nnn mmm : Addr12} (hcls : mmm ≠ 0x0E0) (hret : mmm ≠ 0x0EE) :
    decodeMajor0 nnn = .sys mmm ↔ nnn = mmm := by
  constructor
  · intro h
    rw [decodeMajor0] at h
    split_ifs at h
    exact Instr.sys.inj h
  · rintro rfl
    rw [decodeMajor0, if_neg hcls, if_neg hret]

/-- The words that decode to `0nnn`: the major opcode is 0 and `nnn` is the word's own (rules R85, R86). -/
theorem decodeWord_eq_sys_iff {op : Word} {nnn : Addr12} (hcls : nnn ≠ 0x0E0) (hret : nnn ≠ 0x0EE) :
    decodeWord op = some (.sys nnn) ↔ nibble1 op = 0 ∧ fieldNnn op = nnn := by
  refine decodeWord_eq_iff_of_major rfl rfl fun hop => ?_
  rw [decodeWord_of_major0 hop, Option.some_inj, decodeMajor0_eq_sys_iff hcls hret]

/-- The words that decode to `1nnn` (rule R85). -/
theorem decodeWord_eq_jp_iff {op : Word} {nnn : Addr12} :
    decodeWord op = some (.jp nnn) ↔ nibble1 op = 1 ∧ fieldNnn op = nnn := by
  refine decodeWord_eq_iff_of_major rfl rfl fun hop => ?_
  rw [decodeWord_of_major1 hop, Option.some_inj, Instr.jp.injEq]

end Sys2Proof

namespace Sys2Proof.Machine

/-- A jump to where `PC` stands changes nothing (rule R113). -/
theorem State.jump_pc_self (s : State) : s.jump s.pc = s := rfl

end Sys2Proof.Machine

namespace Sys2Proof.Claims

open Sys2Proof.Machine

/-- An instruction of the format NNN is encoded as its major opcode and its `nnn` (rule R83). -/
theorem encodedAs_of_fields {i : Instr} {n1 : Nibble} {nnn : Addr12}
    (h : ∀ op, decodeWord op = some i ↔ nibble1 op = n1 ∧ fieldNnn op = nnn) :
    EncodedAs i (n1.toNat * 4096 + nnn.toNat) := fun op => by
  rw [h, ← eq_wordNnn_iff, ← wordNnn_toNat, BitVec.toNat_inj]

/-- `1nnn` sets `PC` and nothing else, and not even that at its own address (rule R113). -/
theorem jp_completes (nnn : Addr12) (s : State) : Completes (.jp nnn) s {} (fun t =>
    t.pc.toNat = nnn.toNat ∧ (s.pc.toNat = nnn.toNat → t = s)) := by
  refine ⟨s.jump (address nnn), rfl, unchanged_jump _ s _, address_toNat nnn, fun hpc => ?_⟩
  have haddr : address nnn = s.pc := BitVec.eq_of_toNat_eq ((address_toNat nnn).trans hpc.symm)
  rw [haddr, State.jump_pc_self]

end Sys2Proof.Claims
end

section
/-! PROOFS. O30, O31: the encoding and the effect of `0nnn` and of `1nnn`. -/

namespace Sys2Proof.Proofs

open Sys2Proof.Machine Sys2Proof.Claims

/-- Settles O30: among the words of major opcode 0 all but two decode to `0nnn`, which advances alone. -/
theorem sysIsANoOp : Obligations.SysIsANoOp := by
  refine fun nnn => ⟨fun hcls hret => ?_, sys_completes nnn⟩
  simpa using encodedAs_of_fields fun _ => decodeWord_eq_sys_iff hcls hret

/-- Settles O31: the words of major opcode 1 are those of `1nnn`, and its answer is the state with `PC` replaced. -/
theorem jumpSetsPc : Obligations.JumpSetsPc :=
  fun nnn => ⟨encodedAs_of_fields fun _ => decodeWord_eq_jp_iff, jp_completes nnn⟩

end Sys2Proof.Proofs
end

section
/-! SUPPORT. The words of `3xkk`, `4xkk`, `5xy0` and `9xy0`, the encodings of the formats XKK and XYN, and the answer of a skip. -/

namespace Sys2Proof

/-! ### A word by the fields of its format (rule R83) -/

theorem eq_wordXkk_iff {op : Word} {n1 x : Nibble} {kk : Byte} :
    op = wordXkk n1 x kk ↔ nibble1 op = n1 ∧ fieldX op = x ∧ fieldKk op = kk := by
  rw [← wordXkk_inj, wordXkk_fields]

theorem eq_wordXyn_iff {op : Word} {n1 x y n : Nibble} :
    op = wordXyn n1 x y n ↔ nibble1 op = n1 ∧ fieldX op = x ∧ fieldY op = y ∧ fieldN op = n := by
  rw [← wordXyn_inj, wordXyn_fields]

/-! ### Major opcodes 3, 4, 5 and 9 (rule R85) -/

section

variable {op : Word} {x y : Nibble} {kk : Byte}

theorem decodeWord_of_major3 (h : nibble1 op = 3) : decodeWord op = some (.seVxKk (fieldX op) (fieldKk op)) := by
  rw [decodeWord, h]
  rfl

theorem decodeWord_of_major4 (h : nibble1 op = 4) : decodeWord op = some (.sneVxKk (fieldX op) (fieldKk op)) := by
  rw [decodeWord, h]
  rfl

theorem decodeWord_of_major5 (h : nibble1 op = 5) :
    decodeWord op = if fieldN op = 0 then some (.seVxVy (fieldX op) (fieldY op)) else none := by
  rw [decodeWord, h]
  rfl

theorem decodeWord_of_major9 (h : nibble1 op = 9) :
    decodeWord op = if fieldN op = 0 then some (.sneVxVy (fieldX op) (fieldY op)) else none := by
  rw [decodeWord, h]
  rfl

theorem decodeWord_eq_seVxKk_iff :
    decodeWord op = some (.seVxKk x kk) ↔ nibble1 op = 3 ∧ fieldX op = x ∧ fieldKk op = kk := by
  refine decodeWord_eq_iff_of_major rfl rfl fun hop => ?_
  rw [decodeWord_of_major3 hop, Option.some_inj, Instr.seVxKk.injEq]

theorem decodeWord_eq_sneVxKk_iff :
    decodeWord op = some (.sneVxKk x kk) ↔ nibble1 op = 4 ∧ fieldX op = x ∧ fieldKk op = kk := by
  refine decodeWord_eq_iff_of_major rfl rfl fun hop => ?_
  rw [decodeWord_of_major4 hop, Option.some_inj, Instr.sneVxKk.injEq]

theorem decodeWord_eq_seVxVy_iff :
    decodeWord op = some (.seVxVy x y) ↔ nibble1 op = 5 ∧ fieldX op = x ∧ fieldY op = y ∧ fieldN op = 0 := by
  refine decodeWord_eq_iff_of_major rfl rfl fun hop => ?_
  rw [decodeWord_of_major5 hop, Option.ite_none_right_eq_some, Option.some_inj, Instr.seVxVy.injEq, and_comm, and_assoc]

theorem decodeWord_eq_sneVxVy_iff :
    decodeWord op = some (.sneVxVy x y) ↔ nibble1 op = 9 ∧ fieldX op = x ∧ fieldY op = y ∧ fieldN op = 0 := by
  refine decodeWord_eq_iff_of_major rfl rfl fun hop => ?_
  rw [decodeWord_of_major9 hop, Option.ite_none_right_eq_some, Option.some_inj, Instr.sneVxVy.injEq, and_comm, and_assoc]

/-- In major opcodes 5 and 9 the last nibble of an instruction is 0 (rule R87). -/
theorem decodeWord_eq_none_of_fieldN (h : nibble1 op = 5 ∨ nibble1 op = 9) (hn : fieldN op ≠ 0) : decodeWord op = none := by
  rcases h with h | h
  · rw [decodeWord_of_major5 h, if_neg hn]
  · rw [decodeWord_of_major9 h, if_neg hn]

end

end Sys2Proof

namespace Sys2Proof.Claims

open Sys2Proof.Machine

/-- An instruction of the format XKK is encoded as its major opcode, its `x` and its `kk` (rule R83). -/
theorem encodedAs_of_xkk_fields {i : Instr} {n1 x : Nibble} {kk : Byte}
    (h : ∀ op, decodeWord op = some i ↔ nibble1 op = n1 ∧ fieldX op = x ∧ fieldKk op = kk) :
    EncodedAs i (n1.toNat * 0x1000 + 0x100 * x.toNat + kk.toNat) := fun op => by
  rw [h, ← eq_wordXkk_iff, ← BitVec.toNat_inj, wordXkk_toNat, Nat.mul_comm 0x100]

/-- An instruction of the format XYN is encoded as its major opcode, its `x`, its `y` and its last nibble (rule R83). -/
theorem encodedAs_of_xyn_fields {i : Instr} {n1 x y n : Nibble}
    (h : ∀ op, decodeWord op = some i ↔ nibble1 op = n1 ∧ fieldX op = x ∧ fieldY op = y ∧ fieldN op = n) :
    EncodedAs i (n1.toNat * 0x1000 + 0x100 * x.toNat + 0x10 * y.toNat + n.toNat) := fun op => by
  rw [h, ← eq_wordXyn_iff, ← BitVec.toNat_inj, wordXyn_toNat, Nat.mul_comm 0x100, Nat.mul_comm 0x10]

theorem advances_skipIf (s : State) (c : Bool) : Advances (if c then 4 else 2) s (s.skipIf c) :=
  fun hpc => skipIf_pc_toNat (by omega) Iff.rfl

/-- An instruction that answers a skip passes the next one where its test holds, and writes nothing but `PC` (rule R130). -/
theorem skip_completes {i : Instr} {s : State} {c : Bool} {p q : Prop} (hexec : exec i s = .next (s.skipIf c))
    (hskip : c = true ↔ p) (hstay : c = false ↔ q) :
    Completes i s {} (fun t => (p → Advances 4 s t) ∧ (q → Advances 2 s t)) := by
  refine ⟨s.skipIf c, hexec, unchanged_jump _ s _, fun hp => ?_, fun hq => ?_⟩
  · obtain rfl := hskip.mpr hp
    exact advances_skipIf s true
  · obtain rfl := hstay.mpr hq
    exact advances_skipIf s false

end Sys2Proof.Claims
end

section
/-! PROOFS. O36, O37: the skips on a literal and on a register. -/

namespace Sys2Proof.Proofs

open Sys2Proof.Machine Sys2Proof.Claims

/-- Settles O36: the words of major opcodes 3 and 4 are those of `3xkk` and `4xkk`, whose tests are each other's negation. -/
theorem literalSkipsCompareTheRegister : Obligations.LiteralSkipsCompareTheRegister := by
  refine fun x kk => ⟨encodedAs_of_xkk_fields fun _ => decodeWord_eq_seVxKk_iff,
    encodedAs_of_xkk_fields fun _ => decodeWord_eq_sneVxKk_iff, fun s => ⟨?_, ?_⟩⟩
  · exact skip_completes rfl beq_iff_eq beq_eq_false_iff_ne
  · exact skip_completes rfl bne_iff_ne bne_eq_false_iff_eq

/-- Settles O37: the words of major opcodes 5 and 9 that end in 0 are those of `5xy0` and `9xy0`, and the others decode to
nothing. -/
theorem registerSkipsCompareTheRegisters : Obligations.RegisterSkipsCompareTheRegisters := by
  refine ⟨fun x y => ⟨encodedAs_of_xyn_fields fun _ => decodeWord_eq_seVxVy_iff,
    encodedAs_of_xyn_fields fun _ => decodeWord_eq_sneVxVy_iff, fun s => ⟨?_, ?_⟩⟩, fun s op hfetch hmajor hlast => ?_⟩
  · exact skip_completes rfl beq_iff_eq beq_eq_false_iff_ne
  · exact skip_completes rfl bne_iff_ne bne_eq_false_iff_eq
  · have hn : fieldN op ≠ 0 := fun h => hlast (by rw [← fieldN_toNat, h]; rfl)
    have hn1 : nibble1 op = 5 ∨ nibble1 op = 9 := by
      simp only [← BitVec.toNat_inj, nibble1_toNat]
      exact hmajor
    exact step_of_unknown hfetch (decodeWord_eq_none_of_fieldN hn1 hn)

end Sys2Proof.Proofs
end

section
/-! SUPPORT. The words of `6xkk`, `7xkk` and `8xy0`, and the answer of an instruction that writes one register and advances. -/

namespace Sys2Proof

/-! ### Major opcodes 6, 7 and 8 (rule R85) -/

section

variable {op : Word} {x y : Nibble} {kk : Byte}

theorem decodeWord_of_major6 (h : nibble1 op = 6) : decodeWord op = some (.ldVxKk (fieldX op) (fieldKk op)) := by
  rw [decodeWord, h]
  rfl

theorem decodeWord_of_major7 (h : nibble1 op = 7) : decodeWord op = some (.addVxKk (fieldX op) (fieldKk op)) := by
  rw [decodeWord, h]
  rfl

theorem decodeWord_of_major8 (h : nibble1 op = 8) :
    decodeWord op = decodeMajor8 (fieldX op) (fieldY op) (fieldN op) := by
  rw [decodeWord, h]
  rfl

theorem decodeWord_eq_ldVxKk_iff :
    decodeWord op = some (.ldVxKk x kk) ↔ nibble1 op = 6 ∧ fieldX op = x ∧ fieldKk op = kk := by
  refine decodeWord_eq_iff_of_major rfl rfl fun hop => ?_
  rw [decodeWord_of_major6 hop, Option.some_inj, Instr.ldVxKk.injEq]

theorem decodeWord_eq_addVxKk_iff :
    decodeWord op = some (.addVxKk x kk) ↔ nibble1 op = 7 ∧ fieldX op = x ∧ fieldKk op = kk := by
  refine decodeWord_eq_iff_of_major rfl rfl fun hop => ?_
  rw [decodeWord_of_major7 hop, Option.some_inj, Instr.addVxKk.injEq]

/-- Among the instructions of major opcode 8 the last nibble 0 is that of `8xy0` alone. -/
theorem decodeMajor8_eq_ldVxVy_iff {x' y' n : Nibble} :
    decodeMajor8 x' y' n = some (.ldVxVy x y) ↔ x' = x ∧ y' = y ∧ n = 0 := by
  constructor
  · intro h
    have hn : n = 0 := by
      by_contra hn
      have hrow := decodeMajor8_rowNumber x' y' n
      rw [h, if_neg hn] at hrow
      split_ifs at hrow <;> cases hrow
    subst hn
    obtain ⟨rfl, rfl⟩ := Instr.ldVxVy.inj (Option.some.inj h)
    exact ⟨rfl, rfl, rfl⟩
  · rintro ⟨rfl, rfl, rfl⟩
    rfl

theorem decodeWord_eq_ldVxVy_iff :
    decodeWord op = some (.ldVxVy x y) ↔ nibble1 op = 8 ∧ fieldX op = x ∧ fieldY op = y ∧ fieldN op = 0 := by
  refine decodeWord_eq_iff_of_major rfl rfl fun hop => ?_
  rw [decodeWord_of_major8 hop, decodeMajor8_eq_ldVxVy_iff]

end

end Sys2Proof

namespace Sys2Proof.Claims

open Sys2Proof.Machine

/-- A register write with an advance changes that register and `PC` alone: no flag, unless the register is `VF`. -/
theorem unchanged_setReg_advance (s : State) (x : Nibble) (b : Byte) :
    Unchanged { regs := [x] } s (s.setReg x b).advance :=
  ⟨fun r hr => by rw [State.advance_reg, State.setReg_reg, if_neg (List.ne_of_not_mem_cons hr)], fun _ => rfl,
    fun _ => ⟨rfl, rfl⟩, fun _ => rfl, fun _ => rfl, fun _ => rfl, fun _ _ => rfl, fun _ _ => rfl⟩

/-- An instruction that answers a register write with an advance leaves the written byte there and writes no other register;
`p` is what is claimed of the byte. -/
theorem setReg_completes {i : Instr} {s : State} {x : Nibble} {b : Byte} (p : Byte → Prop)
    (hexec : exec i s = .next (s.setReg x b).advance) (hb : p b) :
    Completes i s { regs := [x] } (fun t => p (t.reg x) ∧ Advances 2 s t) := by
  refine ⟨(s.setReg x b).advance, hexec, unchanged_setReg_advance s x b, ?_, fun hpc => ?_⟩
  · rwa [State.advance_reg, State.setReg_reg, if_pos rfl]
  · exact advance_pc_toNat (s := s.setReg x b) (by rw [State.setReg_pc]; omega)

end Sys2Proof.Claims
end

section
/-! PROOFS. O39: the load of a literal, the addition of a literal, and the copy of a register. -/

namespace Sys2Proof.Proofs

open Sys2Proof.Machine Sys2Proof.Claims

/-- Settles O39: the words of major opcodes 6 and 7, and those of 8 that end in 0, are those of the three, and each answers one
register write with an advance. -/
theorem literalLoadAddAndCopyWriteTheRegister : Obligations.LiteralLoadAddAndCopyWriteTheRegister := by
  refine fun x y kk => ⟨encodedAs_of_xkk_fields fun _ => decodeWord_eq_ldVxKk_iff,
    encodedAs_of_xkk_fields fun _ => decodeWord_eq_addVxKk_iff,
    encodedAs_of_xyn_fields fun _ => decodeWord_eq_ldVxVy_iff, fun s => ⟨?_, ?_, ?_⟩⟩
  · exact setReg_completes (· = kk) rfl rfl
  · exact setReg_completes (·.toNat = ((s.reg x).toNat + kk.toNat) % 256) rfl (BitVec.toNat_add _ _)
  · exact setReg_completes (· = s.reg y) rfl rfl

end Sys2Proof.Proofs
end

section
/-! SUPPORT. The words of `Annn`, and the answer of an instruction that writes `I` and advances. -/

namespace Sys2Proof

/-! ### Major opcode A (rule R85) -/

section

variable {op : Word} {nnn : Addr12}

theorem decodeWord_of_majorA (h : nibble1 op = 0xA) : decodeWord op = some (.ldINnn (fieldNnn op)) := by
  rw [decodeWord, h]
  rfl

theorem decodeWord_eq_ldINnn_iff :
    decodeWord op = some (.ldINnn nnn) ↔ nibble1 op = 0xA ∧ fieldNnn op = nnn := by
  refine decodeWord_eq_iff_of_major rfl rfl fun hop => ?_
  rw [decodeWord_of_majorA hop, Option.some_inj, Instr.ldINnn.injEq]

end

end Sys2Proof

namespace Sys2Proof.Claims

open Sys2Proof.Machine

/-- A write of `I` with an advance changes `I` and `PC` alone. -/
theorem unchanged_setI_advance (s : State) (w : Word) : Unchanged { i := true } s (s.setI w).advance :=
  ⟨fun _ _ => rfl, nofun, fun _ => ⟨rfl, rfl⟩, fun _ => rfl, fun _ => rfl, fun _ => rfl, fun _ _ => rfl, fun _ _ => rfl⟩

/-- An instruction that answers a write of `I` with an advance leaves the written word there and writes no register;
`p` is what is claimed of the word. -/
theorem setI_completes {i : Instr} {s : State} {w : Word} (p : Word → Prop)
    (hexec : exec i s = .next (s.setI w).advance) (hw : p w) :
    Completes i s { i := true } (fun t => p t.i ∧ Advances 2 s t) := by
  refine ⟨(s.setI w).advance, hexec, unchanged_setI_advance s w, ?_, fun hpc => ?_⟩
  · rwa [State.advance_i, State.setI_i]
  · exact advance_pc_toNat (s := s.setI w) (by rw [State.setI_pc]; omega)

end Sys2Proof.Claims
end

section
/-! PROOFS. O46: the load of an address into `I`. -/

namespace Sys2Proof.Proofs

open Sys2Proof.Machine Sys2Proof.Claims

/-- Settles O46: the words of major opcode A are those of `Annn`, and the word written to `I` is the zero-extended `nnn`. -/
theorem loadIndexTakesTwelveBits : Obligations.LoadIndexTakesTwelveBits :=
  fun nnn => ⟨encodedAs_of_fields fun _ => decodeWord_eq_ldINnn_iff,
    fun _ => setI_completes (·.toNat = nnn.toNat) rfl (address_toNat nnn)⟩

end Sys2Proof.Proofs
end

section
/-! SUPPORT. The word of `00E0`, and the state with the framebuffer replaced and `PC` advanced. -/

namespace Sys2Proof

theorem decodeMajor0_eq_cls_iff {nnn : Addr12} : decodeMajor0 nnn = .cls ↔ nnn = 0x0E0 := by
  constructor
  · intro h
    rw [decodeMajor0] at h
    split_ifs at h with hcls
    exact hcls
  · rintro rfl
    rfl

/-- The word that decodes to `00E0`, among those of major opcode 0 (rules R85, R86). -/
theorem decodeWord_eq_cls_iff {op : Word} : decodeWord op = some .cls ↔ nibble1 op = 0 ∧ fieldNnn op = 0x0E0 := by
  refine decodeWord_eq_iff_of_major rfl rfl fun hop => ?_
  rw [decodeWord_of_major0 hop, Option.some_inj, decodeMajor0_eq_cls_iff]

end Sys2Proof

namespace Sys2Proof.Claims

open Sys2Proof.Machine

/-- A framebuffer replaced with an advance changes the framebuffer and `PC` alone: no register, so no flag. -/
theorem unchanged_setFb_advance (s : State) (fb : Frame) : Unchanged { fb := true } s (s.setFb fb).advance :=
  ⟨fun _ _ => rfl, fun _ => rfl, fun _ => ⟨rfl, rfl⟩, fun _ => rfl, fun _ => rfl, fun _ => rfl, nofun, fun _ _ => rfl⟩

theorem advances_setFb_advance (s : State) (fb : Frame) : Advances 2 s (s.setFb fb).advance :=
  fun hpc => advance_pc_toNat (s := s.setFb fb) (by rw [State.setFb_pc]; omega)

end Sys2Proof.Claims
end

section
/-! PROOFS. O53: the clearing of the framebuffer. -/

namespace Sys2Proof.Proofs

open Sys2Proof.Machine Sys2Proof.Claims

/-- Settles O53: one word of major opcode 0 decodes to `00E0`, whose answer is the state with the blank frame, advanced. -/
theorem clsClearsEveryCell : Obligations.ClsClearsEveryCell := by
  refine ⟨encodedAs_of_fields (n1 := 0) (nnn := 0x0E0) fun _ => decodeWord_eq_cls_iff, fun s => ?_⟩
  refine ⟨(s.setFb blankFrame).advance, rfl, unchanged_setFb_advance s _, fun j _ => ?_, advances_setFb_advance s _⟩
  rw [State.advance_cell, State.setFb_cell, cellOf_blankFrame]

end Sys2Proof.Proofs
end

section
/-! SUPPORT. The words of `Fx07`, `Fx15` and `Fx18`, the answers of the timer writes, and every answer under another `ST`. -/

namespace Sys2Proof

/-! ### Instructions whose row fixes the major opcode and `kk` (rule R85) -/

section

variable {op : Word} {x : Nibble}

/-- A row that fixes the major opcode and `kk` leaves `x` free: the words of its instruction with an `x` are those of the row
that have this `x`. -/
theorem decodeWord_eq_iff_of_majorKkRow {f : Nibble → Instr} {number : Nat} {n1 : Nibble} {kk : Byte}
    (hf : Function.Injective f) (hrow : opcodeMap[(f x).rowNumber - 1]? = some (majorKkRow number n1 kk))
    (hdec : ∀ x y n nnn, decodeFields n1 x y n kk nnn = some (f x)) :
    decodeWord op = some (f x) ↔ nibble1 op = n1 ∧ fieldX op = x ∧ fieldKk op = kk := by
  have hfixed (hd : decodeWord op = some (f x)) : nibble1 op = n1 ∧ fieldKk op = kk := by
    obtain ⟨r, hr, hnumber, hmatch⟩ := decodeWord_matches hd
    obtain rfl := Option.some.inj ((Laws.row_of_number _ r ⟨hr, hnumber⟩).symm.trans hrow)
    exact (majorKkRow_matches ..).mp hmatch
  have hx (hn1 : nibble1 op = n1) (hkk : fieldKk op = kk) : decodeWord op = some (f x) ↔ fieldX op = x := by
    rw [decodeWord, hn1, hkk, hdec, Option.some_inj, hf.eq_iff]
  refine ⟨fun hd => ?_, fun ⟨hn1, hop, hkk⟩ => (hx hn1 hkk).mpr hop⟩
  obtain ⟨hn1, hkk⟩ := hfixed hd
  exact ⟨hn1, (hx hn1 hkk).mp hd, hkk⟩

theorem decodeWord_eq_ldVxDt_iff :
    decodeWord op = some (.ldVxDt x) ↔ nibble1 op = 0xF ∧ fieldX op = x ∧ fieldKk op = 0x07 :=
  decodeWord_eq_iff_of_majorKkRow (number := 27) (fun _ _ => Instr.ldVxDt.inj) rfl fun _ _ _ _ => rfl

theorem decodeWord_eq_ldDtVx_iff :
    decodeWord op = some (.ldDtVx x) ↔ nibble1 op = 0xF ∧ fieldX op = x ∧ fieldKk op = 0x15 :=
  decodeWord_eq_iff_of_majorKkRow (number := 29) (fun _ _ => Instr.ldDtVx.inj) rfl fun _ _ _ _ => rfl

theorem decodeWord_eq_ldStVx_iff :
    decodeWord op = some (.ldStVx x) ↔ nibble1 op = 0xF ∧ fieldX op = x ∧ fieldKk op = 0x18 :=
  decodeWord_eq_iff_of_majorKkRow (number := 30) (fun _ _ => Instr.ldStVx.inj) rfl fun _ _ _ _ => rfl

end

end Sys2Proof

namespace Sys2Proof.Machine

/-! ### The sound timer has no part in an answer (rule R224) -/

/-- An answer with `ST` replaced in the state that it hands over, if it hands one over. -/
def answerSetSt (b : Byte) (r : StepResult) : StepResult :=
  match r with
  | .next t => .next (t.setSt b)
  | .fault e => .fault e
  | .refused e => .refused e

section

variable (s : State) (b : Byte)

theorem withData_setSt {len : Nat} {t u : State} (hu : u = t.setSt b) :
    withData (s.setSt b) len u = answerSetSt b (withData s len t) := by
  rw [withData_eq, withData_eq, State.setSt_i, hu]
  split <;> rfl

theorem withKey_setSt {x : Nibble} {t u : State} (hu : u = t.setSt b) :
    withKey (s.setSt b) x u = answerSetSt b (withKey s x t) := by
  rw [withKey_eq, withKey_eq, State.setSt_reg, hu]
  split <;> rfl

theorem State.pop?_setSt : (s.setSt b).pop? = s.pop?.map (Prod.map id (State.setSt · b)) := by
  rw [State.pop?, State.pop?, apply_dite (Option.map _)]
  rfl

theorem State.push?_setSt (ret : Word) : (s.setSt b).push? ret = (s.push? ret).map (State.setSt · b) := by
  rw [State.push?, State.push?, apply_dite (Option.map _)]
  rfl

theorem execRet_setSt : execRet (s.setSt b) = answerSetSt b (execRet s) := by
  rw [execRet, execRet, State.pop?_setSt]
  cases s.pop? <;> rfl

theorem execCall_setSt (nnn : Addr12) : execCall nnn (s.setSt b) = answerSetSt b (execCall nnn s) := by
  rw [execCall, execCall, State.setSt_pc, State.push?_setSt]
  cases s.push? (s.pc + 2#16) <;> rfl

theorem execLdVxK_setSt (x : Nibble) : execLdVxK x (s.setSt b) = answerSetSt b (execLdVxK x s) := by
  rw [execLdVxK, execLdVxK, State.setSt_keys]
  cases leastKey s.keys <;> rfl

/-- From a state with another `ST` an instruction other than `Fx18` answers the same, but for that `ST`. -/
theorem exec_setSt {i : Instr} (hi : ∀ x, i ≠ .ldStVx x) : exec i (s.setSt b) = answerSetSt b (exec i s) := by
  cases i with
  | ldStVx x => exact absurd rfl (hi x)
  | ret => exact execRet_setSt s b
  | call nnn => exact execCall_setSt s b nnn
  | ldVxK x => exact execLdVxK_setSt s b x
  | skp | sknp => exact withKey_setSt s b rfl
  | drw | ldBVx | ldMemVx | ldVxMem => exact withData_setSt s b rfl
  | _ => rfl

end

end Sys2Proof.Machine

namespace Sys2Proof.Claims

open Sys2Proof.Machine

/-- An advance from a state with `PC` as in `s`. -/
theorem advances_of_pc_eq {s u : State} (hu : u.pc = s.pc) : Advances 2 s u.advance := fun hpc => by
  rw [← hu] at hpc ⊢
  exact advance_pc_toNat (by omega)

/-- An instruction that answers a write of `DT` with an advance writes nothing else, and the next tick takes 1 off the written
byte, with a floor at 0 (rules R223, R260). -/
theorem setDt_completes {i : Instr} {s : State} {b : Byte} (hexec : exec i s = .next (s.setDt b).advance) :
    Completes i s { dt := true } (fun t => t.dt = b ∧ Advances 2 s t ∧
      ∀ p, (applyEvent p .tick t).2.dt.toNat = b.toNat - 1) := by
  refine ⟨(s.setDt b).advance, hexec, ?_, rfl, advances_of_pc_eq (s.setDt_pc b), fun _ => tickDown_toNat b⟩
  exact ⟨fun _ _ => rfl, fun _ => rfl, fun _ => ⟨rfl, rfl⟩, nofun, fun _ => rfl, fun _ => rfl, fun _ _ => rfl,
    fun _ _ => rfl⟩

/-- An instruction that answers a write of `ST` with an advance writes nothing else, and the next tick takes 1 off the written
byte, with a floor at 0 (rules R224, R260). -/
theorem setSt_completes {i : Instr} {s : State} {b : Byte} (hexec : exec i s = .next (s.setSt b).advance) :
    Completes i s { st := true } (fun t => t.st = b ∧ Advances 2 s t ∧
      ∀ p, (applyEvent p .tick t).2.st.toNat = b.toNat - 1) := by
  refine ⟨(s.setSt b).advance, hexec, ?_, rfl, advances_of_pc_eq (s.setSt_pc b), fun _ => tickDown_toNat b⟩
  exact ⟨fun _ _ => rfl, fun _ => rfl, fun _ => ⟨rfl, rfl⟩, fun _ => rfl, nofun, fun _ => rfl, fun _ _ => rfl,
    fun _ _ => rfl⟩

/-- `encodedAs_of_xkk_fields` with the fixed parts of the word first: the form of a row that fixes its `kk`. -/
theorem encodedAs_of_xkk_fields_fixed {i : Instr} {n1 x : Nibble} {kk : Byte}
    (h : ∀ op, decodeWord op = some i ↔ nibble1 op = n1 ∧ fieldX op = x ∧ fieldKk op = kk) :
    EncodedAs i (n1.toNat * 0x1000 + kk.toNat + 0x100 * x.toNat) := by
  rw [Nat.add_right_comm]
  exact encodedAs_of_xkk_fields h

end Sys2Proof.Claims
end

section
/-! PROOFS. O57, O58: the delay timer and the sound timer. -/

namespace Sys2Proof.Proofs

open Sys2Proof.Machine Sys2Proof.Claims

/-- Settles O58: `Fx18` answers one write of `ST` with an advance; every other instruction's answer is carried along by a
replacement of `ST`, by cases on the instruction. -/
theorem soundTimerIsWrittenAndNeverRead : Obligations.SoundTimerIsWrittenAndNeverRead := by
  refine ⟨fun x => ⟨encodedAs_of_xkk_fields_fixed fun _ => decodeWord_eq_ldStVx_iff,
    fun s => ⟨setSt_completes rfl, fun _ => rfl⟩⟩, fun i s b hi => ⟨fun t ht => ?_, fun e he => ?_⟩⟩
  · rw [exec_setSt s b hi, ht, answerSetSt]
  · rw [exec_setSt s b hi, he, answerSetSt]

/-- Settles O57: `Fx07` answers one register write with an advance, and `Fx15` one write of `DT`. -/
theorem delayTimerIsReadAndWritten : Obligations.DelayTimerIsReadAndWritten := by
  refine fun x => ⟨encodedAs_of_xkk_fields_fixed fun _ => decodeWord_eq_ldVxDt_iff,
    encodedAs_of_xkk_fields_fixed fun _ => decodeWord_eq_ldDtVx_iff, fun s => ⟨?_, ?_⟩⟩
  · exact setReg_completes (· = s.dt) rfl rfl
  · exact setDt_completes rfl

end Sys2Proof.Proofs
end

section
/-! SUPPORT. The state that a load event leaves with its reply, and what a tick writes and leaves unchanged. -/

namespace Sys2Proof.Machine

variable {s : State} {p : Params}

/-- A load that answers an error keeps the state (rules R60, R245). -/
theorem load_state_of_error {bytes : List Byte} {offset : Nat} {err : Fault}
    (h : (applyEvent p (.load bytes offset) s).1 = .error err) : (applyEvent p (.load bytes offset) s).2 = s := by
  rw [applyEvent] at h ⊢
  cases hl : s.load bytes offset with
  | ok t => rw [hl] at h; cases h
  | error f => rfl

/-! ### Tick (rule R260) -/

theorem tick_dt_toNat (s : State) : s.tick.dt.toNat = s.dt.toNat - 1 := tickDown_toNat s.dt

theorem tick_st_toNat (s : State) : s.tick.st.toNat = s.st.toNat - 1 := tickDown_toNat s.st

end Sys2Proof.Machine

namespace Sys2Proof.Claims

open Sys2Proof.Machine

/-- A tick writes the two timers alone (rule R260). -/
theorem unchanged_tick (s : State) : Unchanged { dt := true, st := true } s s.tick :=
  ⟨fun _ _ => rfl, fun _ => rfl, fun _ => ⟨rfl, rfl⟩, nofun, nofun, fun _ => rfl, fun _ _ => rfl, fun _ _ => rfl⟩

end Sys2Proof.Claims
end

section
/-! PROOFS. O21, O26: an event that answers an error, and the tick. -/

namespace Sys2Proof.Proofs

open Sys2Proof.Machine Sys2Proof.Claims

/-- Settles O21, by cases on the event: `load` and `step` alone can answer an error, and each then keeps the state. -/
theorem anErrorChangesNothing : Obligations.AnErrorChangesNothing := by
  intro p e s err h
  cases e with
  | load bytes offset => exact load_state_of_error h
  | step rnd => exact settle_state_of_error h
  | reset entry => cases h
  | keys k => cases h
  | tick => cases h
  | readFramebuffer => cases h
  | readSound => cases h

/-- Settles O26: each timer is replaced by its own `tickDown`, and the two writes touch nothing else. -/
theorem tickTakesOneFromEachTimer : Obligations.TickTakesOneFromEachTimer := fun _ s =>
  ⟨s.tick, rfl, tick_dt_toNat s, tick_st_toNat s, rfl, unchanged_tick s⟩

end Sys2Proof.Proofs
end

section
/-! SUPPORT. The round trip between the words and the instructions: each format decoded by its fields, each major opcode encoded
again, the fields of an encoding, and the words that decode to nothing. -/

namespace Sys2Proof

/-! ### The word of an instruction decodes to it (rules R83 to R86) -/

section

variable (n1 x y n : Nibble) (kk : Byte) (nnn : Addr12)

theorem decodeWord_wordNnn : ∃ x y n kk, decodeWord (wordNnn n1 nnn) = decodeFields n1 x y n kk nnn :=
  ⟨_, _, _, _, by rw [decodeWord, nibble1_wordNnn, fieldNnn_wordNnn]⟩

theorem decodeWord_wordXkk : ∃ y n nnn, decodeWord (wordXkk n1 x kk) = decodeFields n1 x y n kk nnn :=
  ⟨_, _, _, by rw [decodeWord, nibble1_wordXkk, fieldX_wordXkk, fieldKk_wordXkk]⟩

theorem decodeWord_wordXyn : ∃ kk nnn, decodeWord (wordXyn n1 x y n) = decodeFields n1 x y n kk nnn :=
  ⟨_, _, by rw [decodeWord, nibble1_wordXyn, fieldX_wordXyn, fieldY_wordXyn, fieldN_wordXyn]⟩

end

theorem decodeMajor0_of_wf {nnn : Addr12} (h : (Instr.sys nnn).wf = true) : decodeMajor0 nnn = .sys nnn := by
  obtain ⟨hcls, hret⟩ : nnn ≠ 0x0E0 ∧ nnn ≠ 0x0EE := by simpa [Instr.wf] using h
  exact (decodeMajor0_eq_sys_iff hcls hret).mpr rfl

/-- The decoder reads back what the encoder writes: the format of the row keeps the fields that the row reads. -/
theorem decodeWord_encode {i : Instr} (h : i.wf = true) : decodeWord (encode i) = some i := by
  cases i with
  | cls | ret => rfl
  | sys nnn =>
    obtain ⟨_, _, _, _, hd⟩ := decodeWord_wordNnn 0x0 nnn
    exact hd.trans (congrArg some (decodeMajor0_of_wf h))
  | jp | call | ldINnn | jpV0 =>
    obtain ⟨_, _, _, _, hd⟩ := decodeWord_wordNnn _ _
    exact hd
  | seVxVy | ldVxVy | orVxVy | andVxVy | xorVxVy | addVxVy | subVxVy | shrVx | subnVxVy | shlVx | sneVxVy | drw =>
    obtain ⟨_, _, hd⟩ := decodeWord_wordXyn _ _ _ _
    exact hd
  | seVxKk | sneVxKk | ldVxKk | addVxKk | rndVxKk | skp | sknp | ldVxDt | ldVxK | ldDtVx | ldStVx | addIVx | ldFVx
  | ldBVx | ldMemVx | ldVxMem =>
    obtain ⟨_, _, _, hd⟩ := decodeWord_wordXkk _ _ _
    exact hd

theorem decode_encodeBytes {i : Instr} (h : i.wf = true) (rest : List Byte) :
    decode (encodeBytes i ++ rest) = .ok (i, rest) := by
  simp only [encodeBytes, splitWord, List.cons_append, List.nil_append, decode, joinBytes_splitWord, decodeWord_encode h]

/-! ### What a word decodes to has that word (rules R85 to R87) -/

section

variable {n1 x y n : Nibble} {kk : Byte} {nnn : Addr12} {i : Instr}

theorem encode_decodeMajor0 (nnn : Addr12) : encode (decodeMajor0 nnn) = wordNnn 0x0 nnn := by
  rw [decodeMajor0]
  split_ifs with hcls hret
  · rw [hcls]; rfl
  · rw [hret]; rfl
  · rfl

theorem encode_of_decodeMajor8 (h : decodeMajor8 x y n = some i) : encode i = wordXyn 0x8 x y n := by
  obtain ⟨k, hk, rfl⟩ := nibble_eq_ofNat n
  interval_cases k <;> cases h <;> rfl

theorem encode_of_decodeMajorE (h : decodeMajorE x kk = some i) : encode i = wordXkk 0xE x kk := by
  rw [decodeMajorE] at h
  split_ifs at h with hkk hkk <;> cases h <;> rw [hkk] <;> rfl

theorem encode_of_decodeMajorF (h : decodeMajorF x kk = some i) : encode i = wordXkk 0xF x kk := by
  rw [decodeMajorF] at h
  split_ifs at h with hkk hkk hkk hkk hkk hkk hkk hkk hkk <;> cases h <;> rw [hkk] <;> rfl

/-- Fields that decode are those of the word of the instruction, in the format of its row. -/
theorem encode_of_decodeFields (h : decodeFields n1 x y n kk nnn = some i) :
    encode i = wordNnn n1 nnn ∨ encode i = wordXkk n1 x kk ∨ encode i = wordXyn n1 x y n := by
  obtain ⟨k, hk, rfl⟩ := nibble_eq_ofNat n1
  match k, hk with
  | 0, _ => cases h; exact Or.inl (encode_decodeMajor0 nnn)
  | 1, _ | 2, _ | 10, _ | 11, _ => cases h; exact Or.inl rfl
  | 3, _ | 4, _ | 6, _ | 7, _ | 12, _ => cases h; exact Or.inr (Or.inl rfl)
  | 5, _ | 9, _ =>
    obtain ⟨rfl, h⟩ := Option.ite_none_right_eq_some.mp h
    cases h
    exact Or.inr (Or.inr rfl)
  | 8, _ => exact Or.inr (Or.inr (encode_of_decodeMajor8 h))
  | 13, _ => cases h; exact Or.inr (Or.inr rfl)
  | 14, _ => exact Or.inr (Or.inl (encode_of_decodeMajorE h))
  | 15, _ => exact Or.inr (Or.inl (encode_of_decodeMajorF h))
  | _ + 16, hk => omega

/-- The encoder writes back the word that the decoder read. -/
theorem encode_of_decodeWord {op : Word} (h : decodeWord op = some i) : encode i = op := by
  rcases encode_of_decodeFields h with he | he | he
  · exact he.trans (wordNnn_fields op)
  · exact he.trans (wordXkk_fields op)
  · exact he.trans (wordXyn_fields op)

end

end Sys2Proof

namespace Sys2Proof.Claims

/-! ### The fields of an encoding (rule R84) -/

section

variable {i : Instr} {x y n : Nibble} {kk : Byte} {nnn : Addr12}

theorem fieldX_encode (h : xOf i = some x) : fieldX (encode i) = x := by
  cases i with
  | cls | ret | sys | jp | call | ldINnn | jpV0 => cases h
  | seVxVy | ldVxVy | orVxVy | andVxVy | xorVxVy | addVxVy | subVxVy | shrVx | subnVxVy | shlVx | sneVxVy | drw =>
    exact (fieldX_wordXyn ..).trans (Option.some.inj h)
  | seVxKk | sneVxKk | ldVxKk | addVxKk | rndVxKk | skp | sknp | ldVxDt | ldVxK | ldDtVx | ldStVx | addIVx | ldFVx
  | ldBVx | ldMemVx | ldVxMem => exact (fieldX_wordXkk ..).trans (Option.some.inj h)

theorem fieldY_encode (h : yOf i = some y) : fieldY (encode i) = y := by
  cases i with
  | seVxVy | ldVxVy | orVxVy | andVxVy | xorVxVy | addVxVy | subVxVy | shrVx | subnVxVy | shlVx | sneVxVy | drw =>
    exact (fieldY_wordXyn ..).trans (Option.some.inj h)
  | _ => cases h

theorem fieldN_encode (h : nOf i = some n) : fieldN (encode i) = n := by
  cases i with
  | drw => exact (fieldN_wordXyn ..).trans (Option.some.inj h)
  | _ => cases h

theorem fieldKk_encode (h : kkOf i = some kk) : fieldKk (encode i) = kk := by
  cases i with
  | seVxKk | sneVxKk | ldVxKk | addVxKk | rndVxKk => exact (fieldKk_wordXkk ..).trans (Option.some.inj h)
  | _ => cases h

theorem fieldNnn_encode (h : nnnOf i = some nnn) : fieldNnn (encode i) = nnn := by
  cases i with
  | sys | jp | call | ldINnn | jpV0 => exact (fieldNnn_wordNnn ..).trans (Option.some.inj h)
  | _ => cases h

end

end Sys2Proof.Claims

namespace Sys2Proof

/-! ### The words that decode to nothing (rule R87) -/

section

variable {n1 x y n : Nibble} {kk : Byte} {nnn : Addr12}

theorem decodeMajor8_eq_none_iff :
    decodeMajor8 x y n = none ↔ 8 ≤ n.toNat ∧ n.toNat ≤ 0xD ∨ n.toNat = 0xF := by
  obtain ⟨k, hk, rfl⟩ := nibble_eq_ofNat n
  interval_cases k <;> simp [decodeMajor8]

theorem ite_some_eq_none_iff {α : Type} {p : Prop} [Decidable p] {a : α} {o : Option α} :
    (if p then some a else o) = none ↔ ¬p ∧ o = none := by
  split_ifs with hp <;> simp [hp]

theorem decodeMajorE_eq_none_iff : decodeMajorE x kk = none ↔ kk.toNat ≠ 0x9E ∧ kk.toNat ≠ 0xA1 := by
  simp [decodeMajorE, ite_some_eq_none_iff, ← BitVec.toNat_inj]

theorem decodeMajorF_eq_none_iff :
    decodeMajorF x kk = none ↔ kk.toNat ∉ [0x07, 0x0A, 0x15, 0x18, 0x1E, 0x29, 0x33, 0x55, 0x65] := by
  simp [decodeMajorF, ite_some_eq_none_iff, ← BitVec.toNat_inj]

/-- The table of 30_encoding.md section 5, in the fields of the word. -/
theorem decodeFields_eq_none_iff : decodeFields n1 x y n kk nnn = none ↔
    (n1.toNat = 5 ∧ n.toNat ≠ 0) ∨
    (n1.toNat = 8 ∧ (8 ≤ n.toNat ∧ n.toNat ≤ 0xD ∨ n.toNat = 0xF)) ∨
    (n1.toNat = 9 ∧ n.toNat ≠ 0) ∨
    (n1.toNat = 0xE ∧ kk.toNat ≠ 0x9E ∧ kk.toNat ≠ 0xA1) ∨
    (n1.toNat = 0xF ∧ kk.toNat ∉ [0x07, 0x0A, 0x15, 0x18, 0x1E, 0x29, 0x33, 0x55, 0x65]) := by
  have hn : n = 0#4 ↔ n.toNat = 0 := BitVec.toNat_inj.symm
  obtain ⟨k, hk, rfl⟩ := nibble_eq_ofNat n1
  match k, hk with
  | 5, _ | 9, _ => simp [decodeFields, hn]
  | 8, _ => simpa [decodeFields] using decodeMajor8_eq_none_iff
  | 14, _ => simpa [decodeFields] using decodeMajorE_eq_none_iff
  | 15, _ => simpa [decodeFields] using decodeMajorF_eq_none_iff
  | 0, _ | 1, _ | 2, _ | 3, _ | 4, _ | 6, _ | 7, _ | 10, _ | 11, _ | 12, _ | 13, _ => simp [decodeFields]
  | _ + 16, hk => omega

end

end Sys2Proof
end

section
/-! PROOFS. O1, O2, O5, O6, O7: the decoder against the encoder, the fields, and the words that decode to nothing. -/

namespace Sys2Proof.Proofs

open Sys2Proof.Machine Sys2Proof.Claims

/-- Settles O1: the format that an instruction is encoded in keeps the fields that its row reads, by cases on the instruction. -/
theorem decodeOfEncodeIsTheInstruction : Obligations.DecodeOfEncodeIsTheInstruction :=
  fun _ hwf => ⟨decodeWord_encode hwf, decode_encodeBytes hwf⟩

/-- Settles O2: by cases on the major opcode, the instruction is encoded as the fields it was decoded from, and a word is the
word of its own fields. -/
theorem encodeOfDecodeIsTheWord : Obligations.EncodeOfDecodeIsTheWord :=
  fun _ _ h => ⟨decodeWord_wf h, encode_of_decodeWord h⟩

/-- Settles O5: the decoder's answer turns on the major opcode and one more field, whose numbers are the word's own digits. -/
theorem unknownWordsAreTheListedOnes : Obligations.UnknownWordsAreTheListedOnes := fun op => by
  rw [← nibble1_toNat, ← fieldN_toNat, ← fieldKk_toNat]
  exact decodeFields_eq_none_iff

/-- Settles O6: the word is the instruction's encoding, whose fields are the instruction's. -/
theorem fieldsComeStraightFromTheWord : Obligations.FieldsComeStraightFromTheWord := by
  intro op i h
  obtain rfl := encode_of_decodeWord h
  refine ⟨fun x hx => ?_, fun y hy => ?_, fun n hn => ?_, fun kk hkk => ?_, fun nnn hnnn => ?_⟩
  · rw [← fieldX_toNat, fieldX_encode hx]
  · rw [← fieldY_toNat, fieldY_encode hy]
  · rw [← fieldN_toNat, fieldN_encode hn]
  · rw [← fieldKk_toNat, fieldKk_encode hkk]
  · rw [← fieldNnn_toNat, fieldNnn_encode hnnn]

/-- Settles O7: each word runs through the decoder. -/
theorem wordsOfTheTestVectorsDecode : Obligations.WordsOfTheTestVectorsDecode := by
  unfold Obligations.WordsOfTheTestVectorsDecode
  decide

end Sys2Proof.Proofs
end

section
/-! SUPPORT. What a commit leaves unchanged: the frame of each write of the state, and of every instruction; the stack's slots,
memory's form and the flag after a commit. -/

namespace Sys2Proof.Machine

variable {s t u : State}

/-- A check of data addresses passes only where they all exist (rule R54). -/
theorem withData_fits {len : Nat} (h : withData s len u = .next t) : len = 0 ∨ s.i.toNat + (len - 1) < 4096 := by
  rw [withData_eq] at h
  split at h
  · assumption
  · cases h

theorem execRet_next (h : execRet s = .next t) :
    ∃ k : Fin 16, s.sp.val = k.val + 1 ∧ t = State.jump { s with sp := k.castSucc } s.stack[k] := by
  rcases execRet_cases s with ⟨-, hx⟩ | ⟨k, hk, hx⟩
  · cases hx.symm.trans h
  · exact ⟨k, hk, (Host.Outcome.next.inj (hx.symm.trans h)).symm⟩

theorem execCall_next {nnn : Addr12} (h : execCall nnn s = .next t) : ∃ hsp : s.sp.val < 16,
    t = State.jump { s with stack := s.stack.set s.sp.val (s.pc + 2#16) hsp, sp := ⟨s.sp.val + 1, Nat.succ_lt_succ hsp⟩ }
      (address nnn) := by
  rcases execCall_cases s nnn with ⟨-, hx⟩ | ⟨hsp, hx⟩
  · cases hx.symm.trans h
  · exact ⟨hsp, (Host.Outcome.next.inj (hx.symm.trans h)).symm⟩

theorem execLdVxK_next {x : Nibble} (h : execLdVxK x s = .next t) : t = s ∨ ∃ b, t = (s.setReg x b).advance := by
  rcases execLdVxK_cases s x with ⟨-, hx⟩ | ⟨k, -, -, -, hx⟩
  · exact Or.inl (Host.Outcome.next.inj (hx.symm.trans h)).symm
  · exact Or.inr ⟨_, (Host.Outcome.next.inj (hx.symm.trans h)).symm⟩

end Sys2Proof.Machine

namespace Sys2Proof.Claims

open Sys2Proof.Machine

/-- The three ways an instruction commits: as `exec` has it, as `Cxkk` with the byte of an event, as `Dxyn` in a bit order. -/
theorem Commits.cases {i : Instr} {s t : State} (h : Commits i s t) :
    exec i s = .next t ∨ (∃ rnd x kk, i = .rndVxKk x kk ∧ rndState rnd x kk s = t) ∨
    ∃ msbFirst x y n, i = .drw x y n ∧ drawState msbFirst x y n s = t := by
  rcases h with h | ⟨p, rnd, h⟩
  · exact Or.inl h
  · rcases execWith_cases s p rnd i with ⟨x, kk, rfl, hx⟩ | ⟨x, y, n, rfl, hx⟩ | ⟨-, -, hx⟩
    · exact Or.inr (Or.inl ⟨rnd, x, kk, rfl, Host.Outcome.next.inj (hx.symm.trans h)⟩)
    · exact Or.inr (Or.inr ⟨_, x, y, n, rfl, withData_next (hx.symm.trans h)⟩)
    · exact Or.inl (hx.symm.trans h)

/-! ### The frame of each write -/

section

variable (s : State)

theorem unchanged_refl (m : MayChange) : Unchanged m s s := unchanged_jump m s s.pc

/-- A result with its flag changes the destination, `VF` and `PC` alone. -/
theorem unchanged_setResult_advance (x : Nibble) (b : Byte) (c : Bool) :
    Unchanged { regs := [x, 15] } s (s.setResult x b c).advance := by
  refine ⟨fun r hr => ?_, fun _ => rfl, fun _ => ⟨rfl, rfl⟩, fun _ => rfl, fun _ => rfl, fun _ => rfl, fun _ _ => rfl,
    fun _ _ => rfl⟩
  obtain ⟨hx, hflag⟩ : r ≠ x ∧ r ≠ 15#4 := by simpa using hr
  rw [State.advance_reg, State.setResult_reg, if_neg hflag, if_neg hx]

/-- A draw changes `VF`, the framebuffer and `PC` alone, in either bit order. -/
theorem unchanged_drawState (msbFirst : Bool) (x y n : Nibble) :
    Unchanged { regs := [15], fb := true } s (drawState msbFirst x y n s) := by
  refine ⟨fun r hr => ?_, fun _ => rfl, fun _ => ⟨rfl, rfl⟩, fun _ => rfl, fun _ => rfl, fun _ => rfl, nofun,
    fun _ _ => rfl⟩
  have hflag : r ≠ 15#4 := List.ne_of_not_mem_cons hr
  rw [drawState, State.advance_reg, State.setFlag_reg, if_neg hflag, State.setFb_reg]

theorem unchanged_setDt_advance (b : Byte) : Unchanged { dt := true } s (s.setDt b).advance :=
  ⟨fun _ _ => rfl, fun _ => rfl, fun _ => ⟨rfl, rfl⟩, nofun, fun _ => rfl, fun _ => rfl, fun _ _ => rfl, fun _ _ => rfl⟩

theorem unchanged_setSt_advance (b : Byte) : Unchanged { st := true } s (s.setSt b).advance :=
  ⟨fun _ _ => rfl, fun _ => rfl, fun _ => ⟨rfl, rfl⟩, fun _ => rfl, nofun, fun _ => rfl, fun _ _ => rfl, fun _ _ => rfl⟩

/-- A store changes the bytes that it writes, and no register. -/
theorem unchanged_storeBytes (a : Nat) (bytes : List Byte) :
    Unchanged { base := a, len := bytes.length } s (s.storeBytes a bytes) :=
  ⟨fun _ _ => rfl, fun _ => rfl, fun _ => ⟨rfl, rfl⟩, fun _ => rfl, fun _ => rfl, fun _ => rfl, fun _ _ => rfl,
    fun _ hq => State.storeBytes_readByte_outside s a bytes hq⟩

/-- The stack replaced, with a jump: what a call or a return changes. -/
theorem unchanged_stack_jump (stack : Vector Word 16) (sp : Fin 17) (w : Word) :
    Unchanged { stack := true } s (State.jump { s with stack := stack, sp := sp } w) :=
  ⟨fun _ _ => rfl, fun _ => rfl, nofun, fun _ => rfl, fun _ => rfl, fun _ => rfl, fun _ _ => rfl, fun _ _ => rfl⟩

theorem mem_regsTo {x r : Nibble} : r ∈ regsTo x ↔ r.toNat ≤ x.toNat := by
  simp only [regsTo, List.mem_map, List.mem_range, Nat.lt_succ_iff]
  constructor
  · rintro ⟨k, hk, rfl⟩
    exact (Nat.mod_le _ _).trans hk
  · exact fun hr => ⟨r.toNat, hr, by simp⟩

/-- A load of the registers `V[0]` to `V[x]` changes no other. -/
theorem unchanged_loadRegs_advance (x : Nibble) {bytes : List Byte} (hlen : bytes.length = x.toNat + 1) :
    Unchanged { regs := regsTo x } s (s.loadRegs bytes).advance := by
  refine ⟨fun r hr => ?_, fun _ => rfl, fun _ => ⟨rfl, rfl⟩, fun _ => rfl, fun _ => rfl, fun _ => rfl, fun _ _ => rfl,
    fun _ _ => rfl⟩
  have hr : ¬r.toNat ≤ x.toNat := mem_regsTo.not.mp hr
  rw [State.advance_reg, State.loadRegs_reg, List.getElem?_eq_none (by omega), Option.getD_none]

end

/-! ### The frame of every instruction -/

section

variable {i : Instr} {s t : State}

/-- An instruction that commits in `exec` changes what it writes and `PC`, and nothing else. -/
theorem exec_unchanged (h : exec i s = .next t) : Unchanged (writes i s) s t := by
  cases i with
  | ret =>
    obtain ⟨k, -, rfl⟩ := execRet_next h
    exact unchanged_stack_jump s s.stack _ _
  | call =>
    obtain ⟨_, rfl⟩ := execCall_next h
    exact unchanged_stack_jump s _ _ _
  | ldVxK =>
    obtain rfl | ⟨b, rfl⟩ := execLdVxK_next h
    · exact unchanged_refl t _
    · exact unchanged_setReg_advance s _ b
  | skp | sknp =>
    obtain rfl := withKey_next h
    exact unchanged_jump _ s _
  | drw =>
    obtain rfl := withData_next h
    exact unchanged_drawState s _ _ _ _
  | ldBVx x =>
    obtain rfl := withData_next h
    exact unchanged_storeBytes s _ (digits (s.reg x))
  | ldMemVx x =>
    obtain rfl := withData_next h
    have hstore := unchanged_storeBytes s s.i.toNat (s.regsUpTo x)
    rw [State.length_regsUpTo] at hstore
    exact hstore
  | ldVxMem x =>
    obtain rfl := withData_next h
    exact unchanged_loadRegs_advance s x (s.length_dataBytes _)
  | cls =>
    obtain rfl := Host.Outcome.next.inj h
    exact unchanged_setFb_advance s _
  | sys | jp | jpV0 | seVxKk | sneVxKk | seVxVy | sneVxVy =>
    obtain rfl := Host.Outcome.next.inj h
    exact unchanged_jump _ s _
  | ldVxKk | addVxKk | ldVxVy | orVxVy | andVxVy | xorVxVy | rndVxKk | ldVxDt =>
    obtain rfl := Host.Outcome.next.inj h
    exact unchanged_setReg_advance s _ _
  | addVxVy | subVxVy | shrVx | subnVxVy | shlVx =>
    obtain rfl := Host.Outcome.next.inj h
    exact unchanged_setResult_advance s _ _ _
  | ldINnn | addIVx | ldFVx =>
    obtain rfl := Host.Outcome.next.inj h
    exact unchanged_setI_advance s _
  | ldDtVx =>
    obtain rfl := Host.Outcome.next.inj h
    exact unchanged_setDt_advance s _
  | ldStVx =>
    obtain rfl := Host.Outcome.next.inj h
    exact unchanged_setSt_advance s _

theorem Commits.unchanged (h : Commits i s t) : Unchanged (writes i s) s t := by
  rcases h.cases with h | ⟨rnd, x, kk, rfl, rfl⟩ | ⟨msbFirst, x, y, n, rfl, rfl⟩
  · exact exec_unchanged h
  · exact unchanged_setReg_advance s x _
  · exact unchanged_drawState s msbFirst x y n

/-- An instruction that commits completes with the frame of what it writes. -/
theorem completes_of_exec {post : State → Prop} (h : exec i s = .next t) (hpost : post t) :
    Completes i s (writes i s) post := ⟨t, h, exec_unchanged h, hpost⟩

/-! ### The stack, memory and the flag after a commit -/

/-- A slot keeps its word but where a call pushes the address after it (rules R31, R114). -/
theorem Commits.slot (h : Commits i s t) (k : Fin 16) : t.stack[k] = s.stack[k] ∨ t.stack[k] = s.pc + 2#16 := by
  obtain ⟨-, -, hstack, -⟩ := h.unchanged
  rcases h.cases with hx | ⟨rnd, x, kk, rfl, rfl⟩ | ⟨msbFirst, x, y, n, rfl, rfl⟩
  · cases i with
    | ret =>
      obtain ⟨_, -, rfl⟩ := execRet_next hx
      exact Or.inl rfl
    | call =>
      obtain ⟨hsp, rfl⟩ := execCall_next hx
      by_cases hk : s.sp.val = k.val
      · exact Or.inr (by simp [hk])
      · exact Or.inl (Vector.getElem_set_ne hsp k.isLt hk)
    | _ => exact Or.inl (by rw [(hstack rfl).2])
  · exact Or.inl rfl
  · exact Or.inl rfl

/-- Memory is as before, or has a run of bytes stored at `I` that all exist (rules R54, R185, R186). -/
theorem Commits.mem (h : Commits i s t) : t.mem = s.mem ∨
    ∃ bytes : List Byte, s.i.toNat + bytes.length ≤ 4096 ∧ t.mem = Memory.writeBytes s.mem s.i.toNat bytes := by
  rcases h.cases with hx | ⟨rnd, x, kk, rfl, rfl⟩ | ⟨msbFirst, x, y, n, rfl, rfl⟩
  · cases i with
    | ret =>
      obtain ⟨_, -, rfl⟩ := execRet_next hx
      exact Or.inl rfl
    | call =>
      obtain ⟨_, rfl⟩ := execCall_next hx
      exact Or.inl rfl
    | ldVxK =>
      obtain rfl | ⟨b, rfl⟩ := execLdVxK_next hx
      · exact Or.inl rfl
      · exact Or.inl rfl
    | skp | sknp =>
      obtain rfl := withKey_next hx
      exact Or.inl rfl
    | drw | ldVxMem =>
      obtain rfl := withData_next hx
      exact Or.inl rfl
    | ldBVx x =>
      have hfits := withData_fits hx
      obtain rfl := withData_next hx
      refine Or.inr ⟨digits (s.reg x), ?_, rfl⟩
      change s.i.toNat + 3 ≤ 4096
      omega
    | ldMemVx x =>
      have hfits := withData_fits hx
      obtain rfl := withData_next hx
      refine Or.inr ⟨s.regsUpTo x, ?_, rfl⟩
      rw [State.length_regsUpTo]
      omega
    | _ =>
      obtain rfl := Host.Outcome.next.inj hx
      exact Or.inl rfl
  · exact Or.inl rfl
  · exact Or.inl rfl

/-- A commit keeps memory in its canonical form: what it stores, it stores where bytes exist (rule R50). -/
theorem Commits.memoryCanonical (h : Commits i s t) (hs : s.MemoryCanonical) : t.MemoryCanonical := by
  rcases h.mem with hmem | ⟨bytes, hlen, hmem⟩
  · exact (congrArg Memory.wf hmem).mpr hs
  · exact (congrArg Memory.wf hmem).mpr (Memory.wf_writeBytes hs hlen)

/-- A commit of an instruction that was fetched keeps the return addresses bounded: what a call pushes is at most 0x1000. -/
theorem Commits.returnsBounded (h : Commits i s t) (hpc : s.pc.toNat + 1 < 4096) (hs : s.ReturnsBounded) :
    t.ReturnsBounded := fun k => by
  rcases h.slot k with hk | hk
  · rw [hk]
    exact hs k
  · have := advance_pc_toNat hpc
    rw [hk, ← State.advance_pc, this]
    omega

end

theorem flagByte_zero_or_one (c : Bool) : flagByte c = 0 ∨ flagByte c = 1 := by
  cases c
  · exact Or.inl rfl
  · exact Or.inr rfl

theorem drawState_flag (msbFirst : Bool) (x y n : Nibble) (s : State) :
    (drawState msbFirst x y n s).reg 15 = flagByte (drawCells (s.drawnCells msbFirst x y n) false s.fb).1 :=
  State.setFlag_reg _ _ _

theorem setResult_flag (s : State) (x : Nibble) (b : Byte) (c : Bool) :
    (s.setResult x b c).advance.reg 15 = flagByte c :=
  State.setResult_reg _ _ _ _ _

/-! ### `PC` after a step that commits (rule R29) -/

section

variable {i : Instr} {s t : State}

/-- No instruction sends a `PC` that it was fetched at beyond 0x10FE, the furthest that `Bnnn` reaches. -/
theorem PcWritten.le (h : PcWritten i s t) (hpc : s.pc.toNat + 1 < 4096) (hs : s.ReturnsBounded) :
    t.pc.toNat ≤ 0x10FE := by
  cases i with
  | jp nnn | call nnn =>
    have hnnn := nnn.isLt
    have : t.pc.toNat = nnn.toNat := h
    omega
  | jpV0 nnn =>
    have hnnn := nnn.isLt
    have hv := (s.reg 0).isLt
    have : t.pc.toNat = nnn.toNat + (s.reg 0).toNat := h
    omega
  | ret =>
    obtain ⟨k, -, hk⟩ := h
    have := hs k
    rw [hk]
    omega
  | seVxKk | sneVxKk | seVxVy | sneVxVy | skp | sknp | ldVxK =>
    simp only [PcWritten] at h
    split at h <;> omega
  | _ =>
    have : t.pc.toNat = s.pc.toNat + 2 := h
    omega

/-- From an even `PC` and even return addresses only a transfer to an odd address makes `PC` odd (decision D10). -/
theorem PcWritten.even (h : PcWritten i s t) (hpc : s.pc.toNat % 2 = 0) (hstack : ∀ k : Fin 16, s.stack[k].toNat % 2 = 0)
    (hnnn : ∀ nnn, i = .jp nnn ∨ i = .call nnn → nnn.toNat % 2 = 0)
    (hv0 : ∀ nnn, i = .jpV0 nnn → (nnn.toNat + (s.reg 0).toNat) % 2 = 0) : t.pc.toNat % 2 = 0 := by
  cases i with
  | jp nnn =>
    have hto : t.pc.toNat = nnn.toNat := h
    exact hto ▸ hnnn nnn (Or.inl rfl)
  | call nnn =>
    have hto : t.pc.toNat = nnn.toNat := h
    exact hto ▸ hnnn nnn (Or.inr rfl)
  | jpV0 nnn =>
    have hto : t.pc.toNat = nnn.toNat + (s.reg 0).toNat := h
    exact hto ▸ hv0 nnn rfl
  | ret =>
    obtain ⟨k, -, hk⟩ := h
    exact hk ▸ hstack k
  | seVxKk | sneVxKk | seVxVy | sneVxVy | skp | sknp | ldVxK =>
    simp only [PcWritten] at h
    split at h <;> omega
  | _ =>
    have : t.pc.toNat = s.pc.toNat + 2 := h
    omega

end

end Sys2Proof.Claims

namespace Sys2Proof.Machine

/-! ### What every event keeps, every schedule keeps (rule R40) -/

/-- A property of the state that the answered state has, and the kept one, is that of the settled one. -/
theorem settle_keeps {P : State → Prop} {s : State} {r : StepResult} (hs : P s) (hr : ∀ t, r = .next t → P t) :
    P (settle s r).2 := by
  cases r with
  | next t => exact hr t rfl
  | fault e => exact hs
  | refused e => exact hs

theorem runEvents_keeps {P : State → Prop} {p : Params} (h : ∀ e s, P s → P (applyEvent p e s).2) (events : List Event)
    {s : State} (hs : P s) : P (runEvents p events s).2 := by
  induction events generalizing s with
  | nil => exact hs
  | cons e rest ih => exact ih (h e s hs)

/-- A load keeps what a store that fits keeps (rule R60). -/
theorem load_keeps {P : State → Prop} {p : Params} {s : State} {bytes : List Byte} {offset : Nat} (hs : P s)
    (h : offset + bytes.length ≤ 4096 → P (s.storeBytes offset bytes)) : P (applyEvent p (.load bytes offset) s).2 := by
  rw [applyEvent, State.load_eq]
  split_ifs with hlen
  · exact hs
  · exact h (Nat.le_of_not_lt hlen)

theorem applyEvent_memoryCanonical (p : Params) (e : Event) (s : State) (hs : s.MemoryCanonical) :
    (applyEvent p e s).2.MemoryCanonical := by
  cases e with
  | reset entry => exact State.resetWith_mem_wf p.font entry
  | load bytes offset => exact load_keeps hs fun hlen => Memory.wf_writeBytes hs hlen
  | step rnd =>
    refine settle_keeps hs fun t h => ?_
    obtain ⟨_, i, -, -, -, hc⟩ := Claims.StepCommits.commits (Or.inr ⟨p, rnd, h⟩)
    exact hc.memoryCanonical hs
  | keys | tick | readFramebuffer | readSound => exact hs

theorem applyEvent_returnsBounded (p : Params) (e : Event) (s : State) (hs : s.ReturnsBounded) :
    (applyEvent p e s).2.ReturnsBounded := by
  cases e with
  | reset entry => intro k; simp [applyEvent]
  | load bytes offset => exact load_keeps hs fun _ => hs
  | step rnd =>
    refine settle_keeps hs fun t h => ?_
    obtain ⟨_, i, -, hpc, -, hc⟩ := Claims.StepCommits.commits (Or.inr ⟨p, rnd, h⟩)
    exact hc.returnsBounded hpc hs
  | keys | tick | readFramebuffer | readSound => exact hs

end Sys2Proof.Machine
end

section
/-! PROOFS. O12, O13, O14, O18, O19, O20: what every instruction leaves unchanged, and what every step and every schedule keep. -/

namespace Sys2Proof.Proofs

open Sys2Proof.Machine Sys2Proof.Claims

/-- Settles O18: a step that commits ran an instruction, which stores bytes where they exist or leaves memory alone. -/
theorem stepKeepsMemoryCanonical : Obligations.StepKeepsMemoryCanonical := fun s t hs h => by
  obtain ⟨_, _, -, -, -, hc⟩ := StepCommits.commits (Or.inl h)
  exact hc.memoryCanonical hs

/-- Settles O19: the instruction was fetched at 0xFFE or below, from where no push passes 0x1000 and no write of `PC` 0x10FE. -/
theorem stepKeepsReturnAddressesAndPcBounded : Obligations.StepKeepsReturnAddressesAndPcBounded := fun s t hs h => by
  obtain ⟨_, _, -, hpc, -, hc⟩ := StepCommits.commits (Or.inl h)
  exact ⟨hc.returnsBounded hpc hs, (commits_pcWritten hpc hc).le hpc hs⟩

/-- Settles O20, by induction on the schedule: each event keeps both. -/
theorem everyScheduleKeepsTheInvariants : Obligations.EveryScheduleKeepsTheInvariants := fun p events _ hmem hreturns =>
  ⟨runEvents_keeps (applyEvent_memoryCanonical p) events hmem, runEvents_keeps (applyEvent_returnsBounded p) events hreturns⟩

/-- Settles O12, by cases on the instruction: each answers one of a few writes of the state, and each write has its frame. -/
theorem stateChangesOnlyByItsWriters : Obligations.StateChangesOnlyByItsWriters := fun _ _ _ h => h.unchanged

/-- Settles O13: each of the six writes `VF` last, and a flag is 0 or 1. -/
theorem flagInstructionsLeaveZeroOrOne : Obligations.FlagInstructionsLeaveZeroOrOne := by
  intro s t x y n i hi h
  rcases h.cases with hx | ⟨rnd, x', kk, rfl, -⟩ | ⟨msbFirst, x', y', n', rfl, rfl⟩
  · cases i with
    | addVxVy | subVxVy | shrVx | subnVxVy | shlVx =>
      obtain rfl := Host.Outcome.next.inj hx
      rw [setResult_flag]
      exact flagByte_zero_or_one _
    | drw =>
      obtain rfl := withData_next hx
      rw [drawState_flag]
      exact flagByte_zero_or_one _
    | _ => simp at hi
  · simp at hi
  · rw [drawState_flag]
    exact flagByte_zero_or_one _

/-- Settles O14: `PC` moves by an even distance, to a stacked address or to the transfer's own; a push is of `PC + 2`. -/
theorem pcStaysEvenUnlessSentToAnOddAddress : Obligations.PcStaysEvenUnlessSentToAnOddAddress := by
  intro s t hpc hstack h hto
  obtain ⟨op, i, hf, hfetch, hi, hc⟩ := h.commits
  obtain ⟨hnnn, hv0⟩ := hto op i hf hi
  refine ⟨(commits_pcWritten hfetch hc).even hpc hstack hnnn hv0, fun k => ?_⟩
  rcases hc.slot k with hk | hk
  · rw [hk]
    exact hstack k
  · rw [hk, ← State.advance_pc, advance_pc_toNat hfetch]
    omega

end Sys2Proof.Proofs
end

section
/-! SUPPORT. The errors of the instructions, in `exec` and in a step event, and the step event by what its fetch and its decode
answer. -/

namespace Sys2Proof.Machine

variable {s t : State}

/-! ### The errors of a check -/

theorem withData_fault_iff {len : Nat} {e : Fault} : withData s len t = .fault e ↔
    0 < len ∧ 4096 ≤ s.i.toNat + (len - 1) ∧ e = .outOfBounds .data (max s.i.toNat 4096) := by
  rw [withData_eq]
  split_ifs with hfits
  · exact ⟨nofun, fun ⟨hlen, hpast, _⟩ => by omega⟩
  · rw [Host.Outcome.fault.injEq]
    exact ⟨fun he => ⟨by omega, by omega, he.symm⟩, fun ⟨_, _, he⟩ => he.symm⟩

theorem withKey_fault_iff {x : Nibble} {e : Fault} : withKey s x t = .fault e ↔
    15 < (s.reg x).toNat ∧ e = .outOfBounds .key (s.reg x).toNat := by
  rw [withKey_eq]
  split_ifs with hkey
  · rw [Host.Outcome.fault.injEq]
    exact ⟨fun he => ⟨hkey, he.symm⟩, fun ⟨_, he⟩ => he.symm⟩
  · exact ⟨nofun, fun ⟨hpast, _⟩ => absurd hpast hkey⟩

theorem withData_ne_refused {len : Nat} {r : Refusal} : withData s len t ≠ .refused r := by
  rw [withData_eq]
  split_ifs <;> nofun

theorem withKey_ne_refused {x : Nibble} {r : Refusal} : withKey s x t ≠ .refused r := by
  rw [withKey_eq]
  split_ifs <;> nofun

theorem execRet_fault_iff {e : Fault} : execRet s = .fault e ↔ s.sp.val = 0 ∧ e = .stackUnderflow s.pc := by
  rcases execRet_cases s with ⟨hsp, hx⟩ | ⟨k, hk, hx⟩ <;> rw [hx]
  · rw [Host.Outcome.fault.injEq]
    exact ⟨fun he => ⟨hsp, he.symm⟩, fun ⟨_, he⟩ => he.symm⟩
  · exact ⟨nofun, fun ⟨hsp, _⟩ => by omega⟩

theorem execCall_fault_iff {nnn : Addr12} {e : Fault} :
    execCall nnn s = .fault e ↔ s.sp.val = 16 ∧ e = .stackOverflow s.pc := by
  rcases execCall_cases s nnn with ⟨hsp, hx⟩ | ⟨hlt, hx⟩ <;> rw [hx]
  · rw [Host.Outcome.fault.injEq]
    exact ⟨fun he => ⟨hsp, he.symm⟩, fun ⟨_, he⟩ => he.symm⟩
  · exact ⟨nofun, fun ⟨hsp, _⟩ => by omega⟩

/-! ### The step event by what its fetch and its decode answer (rules R42, R80) -/

section

variable {p : Params} {rnd : Byte} {op : Word}

theorem stepWith_of_pc_past_end (h : 4096 ≤ s.pc.toNat + 1) :
    stepWith p rnd s = .fault (.outOfBounds .fetch s.pc.toNat) := by
  simp only [stepWith, fetchWord_eq, if_pos h, raise]

theorem stepWith_of_unknown (hf : fetchWord s = .ok op) (hd : decodeWord op = none) :
    stepWith p rnd s = .fault (.unknownOpcode op s.pc) := by
  simp only [stepWith, hf, hd, raise]

theorem stepWith_of_decoded {i : Instr} (hf : fetchWord s = .ok op) (hd : decodeWord op = some i) :
    stepWith p rnd s = execWith p rnd i s := by
  simp only [stepWith, hf, hd]

/-- A step event is another step where the instruction that the word decodes to, if any, answers alike in both. -/
theorem stepWith_eq_stepWith {rnd' : Byte} (h : ∀ op i, fetchWord s = .ok op → decodeWord op = some i →
    execWith p rnd i s = execWith p rnd' i s) : stepWith p rnd s = stepWith p rnd' s := by
  rcases stepWith_cases s p rnd with ⟨hpc, hs⟩ | ⟨op, hf, -, ⟨hd, hs⟩ | ⟨i, hi, hs⟩⟩ <;> rw [hs]
  · exact (stepWith_of_pc_past_end hpc).symm
  · exact (stepWith_of_unknown hf hd).symm
  · exact (h op i hf hi).trans (stepWith_of_decoded hf hi).symm

theorem stepWith_eq_step (h : ∀ op i, fetchWord s = .ok op → decodeWord op = some i →
    execWith p rnd i s = exec i s) : stepWith p rnd s = step s := by
  rcases stepWith_cases s p rnd with ⟨hpc, hs⟩ | ⟨op, hf, -, ⟨hd, hs⟩ | ⟨i, hi, hs⟩⟩ <;> rw [hs]
  · exact (step_of_pc_past_end hpc).symm
  · exact (step_of_unknown hf hd).symm
  · exact (h op i hf hi).trans (step_of_decoded hf hi).symm

/-- `Cxkk` alone reads the byte of the event (rule R267). -/
theorem execWith_rnd_irrelevant {i : Instr} {rnd' : Byte} (hrnd : ∀ x kk, i ≠ .rndVxKk x kk) :
    execWith p rnd i s = execWith p rnd' i s := by
  cases i with
  | rndVxKk x kk => exact absurd rfl (hrnd x kk)
  | _ => rfl

/-- `Dxyn` alone reads the bit order, whose default is bit 7 leftmost (rule R206). -/
theorem execWith_eq_exec {i : Instr} (hrnd : ∀ x kk, i ≠ .rndVxKk x kk)
    (horder : p.spriteMsbFirst = true ∨ ∀ x y n, i ≠ .drw x y n) : execWith p rnd i s = exec i s := by
  rcases execWith_cases s p rnd i with ⟨x, kk, rfl, -⟩ | ⟨x, y, n, rfl, hx⟩ | ⟨-, -, hx⟩
  · exact absurd rfl (hrnd x kk)
  · have hmsb : p.spriteMsbFirst = true := horder.resolve_right fun h => h x y n rfl
    rw [hx, hmsb]
    rfl
  · exact hx

end

theorem settle_error {r : StepResult} {e : Fault} (h : (settle s r).1 = .error e) : r = .fault e := by
  cases r with
  | next t => cases h
  | fault f => exact congrArg _ (Reply.error.inj h)
  | refused f => cases h

/-! ### The step event by what the step answers (rule R41) -/

section

variable {p : Params} {rnd : Byte} {r : StepResult}

theorem applyEvent_step_of_next (h : stepWith p rnd s = .next t) : applyEvent p (.step rnd) s = (.ok, t) :=
  congrArg (settle s) h

theorem applyEvent_step_of_fault {e : Fault} (h : stepWith p rnd s = .fault e) :
    applyEvent p (.step rnd) s = (.error e, s) :=
  congrArg (settle s) h

end

end Sys2Proof.Machine

namespace Sys2Proof.Claims

open Sys2Proof.Machine

/-! ### The errors of every instruction (rule R242) -/

section

variable {i : Instr} {s : State} {e : Fault}

theorem exec_fault_iff : exec i s = .fault e ↔ OwnError i s e := by
  cases i with
  | ret => exact execRet_fault_iff
  | call nnn => exact execCall_fault_iff
  | skp | sknp => exact withKey_fault_iff
  | drw x y n =>
    refine (withData_fault_iff (s := s)).trans (and_congr_right fun hn => ?_)
    rw [Nat.add_sub_assoc hn]
  | ldBVx =>
    exact (withData_fault_iff (s := s)).trans (and_iff_right (by decide))
  | ldMemVx x | ldVxMem x =>
    exact (withData_fault_iff (s := s)).trans (and_iff_right (Nat.succ_pos _))
  | ldVxK x =>
    refine ⟨fun h => ?_, False.elim⟩
    rcases execLdVxK_cases s x with ⟨-, hx⟩ | ⟨k, -, -, -, hx⟩ <;> cases hx.symm.trans h
  | _ => exact ⟨nofun, False.elim⟩

theorem exec_ne_refused {r : Refusal} : exec i s ≠ .refused r := by
  cases i with
  | ret =>
    intro h
    rcases execRet_cases s with ⟨-, hx⟩ | ⟨k, -, hx⟩ <;> cases hx.symm.trans h
  | call nnn =>
    intro h
    rcases execCall_cases s nnn with ⟨-, hx⟩ | ⟨_, hx⟩ <;> cases hx.symm.trans h
  | ldVxK x =>
    intro h
    rcases execLdVxK_cases s x with ⟨-, hx⟩ | ⟨k, -, -, -, hx⟩ <;> cases hx.symm.trans h
  | skp | sknp => exact withKey_ne_refused
  | drw | ldBVx | ldMemVx | ldVxMem => exact withData_ne_refused
  | _ => nofun

variable {p : Params} {rnd : Byte}

/-- The bit order and the random byte have no part in the errors. -/
theorem execWith_fault_iff : execWith p rnd i s = .fault e ↔ OwnError i s e := by
  rcases execWith_cases s p rnd i with ⟨x, kk, rfl, -⟩ | ⟨x, y, n, rfl, hx⟩ | ⟨-, -, hx⟩
  · exact ⟨nofun, False.elim⟩
  · rw [hx, ← exec_fault_iff]
    exact withData_fault_iff.trans (withData_fault_iff (s := s)).symm
  · rw [hx]
    exact exec_fault_iff

theorem execWith_ne_refused {r : Refusal} : execWith p rnd i s ≠ .refused r := by
  rcases execWith_cases s p rnd i with ⟨x, kk, rfl, -⟩ | ⟨x, y, n, rfl, hx⟩ | ⟨-, -, hx⟩
  · nofun
  · rw [hx]
    exact withData_ne_refused
  · rw [hx]
    exact exec_ne_refused

/-- A step event fails whatever its random byte: `Cxkk`, which reads the byte, has no error. -/
theorem stepWith_fault_any_rnd {rnd' : Byte} (h : stepWith p rnd s = .fault e) : stepWith p rnd' s = .fault e := by
  refine Eq.trans (stepWith_eq_stepWith fun op i hf hi => ?_) h
  have hown : OwnError i s e := execWith_fault_iff.mp ((stepWith_of_decoded hf hi).symm.trans h)
  exact (execWith_fault_iff.mpr hown).trans (execWith_fault_iff.mpr hown).symm

end

/-- `Cxkk` with the byte of an event writes it, masked, and nothing else but `PC` (rule R162). -/
theorem rndState_spec (rnd : Byte) (x : Nibble) (kk : Byte) (s : State) :
    (rndState rnd x kk s).reg x = rnd &&& kk ∧ Unchanged { regs := [x] } s (rndState rnd x kk s) ∧
      Advances 2 s (rndState rnd x kk s) := by
  refine ⟨?_, unchanged_setReg_advance s x _, advances_of_pc_eq rfl⟩
  rw [rndState, State.advance_reg, State.setReg_reg, if_pos rfl]

end Sys2Proof.Claims
end

section
/-! PROOFS. O9, O11, O22, O29, O44, O45: the errors, the step event, and the steps that change nothing. -/

namespace Sys2Proof.Proofs

open Sys2Proof.Machine Sys2Proof.Claims

/-- Settles O9, by cases on the instruction: an error comes from a full or empty stack or from a check of data or of a key. -/
theorem errorsAreExactlyTheListedOnes : Obligations.ErrorsAreExactlyTheListedOnes := fun _ _ =>
  ⟨fun _ => exec_fault_iff, fun _ => exec_ne_refused, fun _ _ => ⟨fun _ => execWith_fault_iff, fun _ => execWith_ne_refused⟩⟩

/-- Settles O11: the event settles what the step answers, and the step runs the instruction that the fetched word decodes to. -/
theorem stepEventRunsTheDecodedInstruction : Obligations.StepEventRunsTheDecodedInstruction := by
  refine fun p rnd s => ⟨fun hpc => applyEvent_step_of_fault (stepWith_of_pc_past_end hpc), fun op hf =>
    ⟨fun hd => applyEvent_step_of_fault (stepWith_of_unknown hf hd), fun i hi => ?_, fun x kk hi => ?_⟩⟩
  · have hstep : stepWith p rnd s = execWith p rnd i s := stepWith_of_decoded hf hi
    exact ⟨hstep, fun t ht => applyEvent_step_of_next (hstep.trans ht),
      fun e he => applyEvent_step_of_fault (hstep.trans he), execWith_eq_exec⟩
  · obtain ⟨hreg, hframe, -⟩ := rndState_spec rnd x kk s
    have hnext : stepWith p rnd s = .next (rndState rnd x kk s) := stepWith_of_decoded hf hi
    obtain ⟨_, _, -, hpc, -⟩ := stepWith_next hnext
    exact ⟨_, applyEvent_step_of_next hnext, hreg, hframe, advance_pc_toNat (s := s.setReg x _) hpc⟩

/-- Settles O22: a failed step event leaves the state, from which the step fails alike for every byte. -/
theorem aFailedStepFailsTheSameWayAgain : Obligations.AFailedStepFailsTheSameWayAgain := fun p s rnd rnd' err h => by
  have hfault : stepWith p rnd s = .fault err := settle_error h
  rw [applyEvent_step_of_fault hfault]
  exact applyEvent_step_of_fault (stepWith_fault_any_rnd hfault)

/-- Settles O29: the two words are the encodings of `1nnn` and `Fx0A`, which then answer the state itself. -/
theorem stoppedAndWaitingStatesStepToThemselves : Obligations.StoppedAndWaitingStatesStepToThemselves := by
  refine fun s => ⟨fun ⟨nnn, hf, hpc⟩ => ?_, fun ⟨⟨x, hf⟩, hkeys⟩ => ?_⟩
  · rw [step_of_decoded hf (decodeWord_encode (i := .jp nnn) rfl)]
    change Host.Outcome.next (s.jump (nnn.setWidth 16)) = _
    rw [← hpc, State.jump_pc_self]
  · rw [step_of_decoded hf (decodeWord_encode (i := .ldVxK x) rfl)]
    rcases execLdVxK_cases s x with ⟨-, hx⟩ | ⟨k, -, hdown, -⟩
    · exact hx
    · simp [hkeys] at hdown

/-- Settles O44: a bit that `kk` lacks is 0 in the masked byte, whatever the byte. -/
theorem randomByteIsMaskedIntoTheRegister : Obligations.RandomByteIsMaskedIntoTheRegister := by
  refine fun x kk s => ⟨?_, fun p rnd => ⟨rndState rnd x kk s, rfl, rndState_spec rnd x kk s⟩⟩
  obtain ⟨hreg, -, hadv⟩ := rndState_spec (Config.randomByte s.draws) x kk s
  refine completes_of_exec rfl ⟨hreg, fun k hk => ?_, hadv⟩
  rw [State.countDraw_reg, hreg, BitVec.getLsbD_and, hk, Bool.and_false]

/-- Settles O45: what the word decodes to is not `Cxkk`, so it answers the same for every byte, and as in `exec` in the default
order or if it is not `Dxyn`. -/
theorem onlyRndReadsTheRandomByte : Obligations.OnlyRndReadsTheRandomByte := by
  intro p rnd s hno
  have hrnd {op i} (hf : fetchWord s = .ok op) (hi : decodeWord op = some i) (x : Nibble) (kk : Byte) : i ≠ .rndVxKk x kk :=
    fun h => hno op x kk hf (h ▸ hi)
  refine ⟨fun rnd' => stepWith_eq_stepWith fun op i hf hi => execWith_rnd_irrelevant (hrnd hf hi), fun horder => ?_⟩
  refine stepWith_eq_step fun op i hf hi => execWith_eq_exec (hrnd hf hi) ?_
  exact horder.imp_right fun hdrw x y n h => hdrw op x y n hf (h ▸ hi)

end Sys2Proof.Proofs
end

section
/-! SUPPORT. The state after a reset, memory and the next fetch after a store, the events of a load and of the keys, and a timer over
a schedule. -/

namespace Sys2Proof.Machine

variable {s : State} {p : Params}

/-! ### Reset, load and keys (rules R60, R280) -/

theorem applyEvent_load_of_fits {bytes : List Byte} {offset : Nat} (h : offset + bytes.length ≤ 4096) :
    applyEvent p (.load bytes offset) s = (.ok, s.storeBytes offset bytes) := by
  rw [applyEvent, State.load_eq, if_neg (Nat.not_lt.mpr h)]

theorem applyEvent_load_of_past {bytes : List Byte} {offset : Nat} (h : 4096 < offset + bytes.length) :
    applyEvent p (.load bytes offset) s = (.error (.outOfBounds .load (offset + bytes.length)), s) := by
  rw [applyEvent, State.load_eq, if_pos h]

/-- A load that answers `Ok` has stored its bytes. -/
theorem load_state_of_ok {bytes : List Byte} {offset : Nat} {t : State}
    (h : applyEvent p (.load bytes offset) s = (.ok, t)) : t = s.storeBytes offset bytes := by
  by_cases hlen : offset + bytes.length ≤ 4096
  · rw [applyEvent_load_of_fits hlen] at h
    exact (congrArg Prod.snd h).symm
  · rw [applyEvent_load_of_past (Nat.lt_of_not_le hlen)] at h
    cases congrArg Prod.fst h

theorem runEvents_boot {entry : Word} {image : List Byte} {offset : Nat} (h : offset + image.length ≤ 4096) :
    runEvents p (boot entry image offset) s =
      ([.none, .ok], (s.resetEvent p.font entry).storeBytes offset image) := by
  have hreset : applyEvent p (.reset entry) s = (.none, s.resetEvent p.font entry) := rfl
  simp only [boot, runEvents, hreset, applyEvent_load_of_fits h]

/-! ### Reads after a store (rule R66) -/

/-- The byte number `k` of a store reads back at its own address. -/
theorem State.storeBytes_readByte_stored {a k : Nat} {bytes : List Byte} {b : Byte} (h : bytes[k]? = some b) :
    (s.storeBytes a bytes).readByte (a + k) = b := by
  rw [State.storeBytes_readByte, if_pos (Nat.le_add_right a k), Nat.add_sub_cancel_left, h, Option.getD_some]

/-- The registers that `Fx55` stores, by their numbers. -/
theorem State.regsUpTo_eq_map (s : State) (x : Nibble) :
    s.regsUpTo x = (List.range (x.toNat + 1)).map fun k => s.reg (BitVec.ofNat 4 k) := by
  refine List.ext_getElem (by simp) fun k hk _ => ?_
  have hx := nibble_lt x
  have hk16 : k % 16 = k := by
    rw [State.length_regsUpTo] at hk
    omega
  simp [State.regsUpTo, State.reg, hk16]

end Sys2Proof.Machine

namespace Sys2Proof.Claims

open Sys2Proof.Machine

/-- A state with every field at its reset value but for `PC`, a memory that reads as FONT and zeros, and the draw count. -/
theorem asReset_of_mem {font : Font} {m : Memory} (entry : Word) (draws : Nat)
    (hm : ∀ a, Memory.read m a = (font[a]?).getD 0) :
    AsReset font entry { State.reset with pc := entry, mem := m, draws := draws } := by
  refine ⟨fun r => ?_, rfl, rfl, fun k => ?_, rfl, rfl, rfl, fun j _ => cellOf_blankFrame j, fun k _ => BitVec.getLsbD_zero,
    fun a ha => ?_, fun a ha _ => ?_⟩
  · exact Vector.getElem_replicate (nibble_lt r)
  · exact Vector.getElem_replicate k.isLt
  · exact (hm a).trans (by rw [Vector.getElem?_eq_getElem ha, Option.getD_some])
  · exact (hm a).trans (by rw [Vector.getElem?_eq_none ha, Option.getD_none])

theorem storeBytes_readByte_eq_overlaid (s : State) (base : Nat) (bytes : List Byte) (a : Nat) :
    (s.storeBytes base bytes).readByte a = overlaid s base bytes a := by
  rw [State.storeBytes_readByte, overlaid, ← ite_not]
  simp only [Nat.not_le]

/-- A fetch reads the bytes that memory holds at `PC` and after it (rules R55, R80). -/
theorem fetchesFrom_of_readByte {t : State} {byteAt : Nat → Byte} (h : ∀ a, t.readByte a = byteAt a) :
    FetchesFrom t byteAt := fun hpc =>
  ⟨_, (fetchWord_eq t).trans (if_neg (Nat.not_le.mpr hpc)), by rw [joinBytes_toNat, h, h]⟩

theorem fetchesFrom_storeBytes (s : State) (base : Nat) (bytes : List Byte) :
    FetchesFrom (s.storeBytes base bytes) (overlaid s base bytes) :=
  fetchesFrom_of_readByte (storeBytes_readByte_eq_overlaid s base bytes)

/-! ### A timer over a schedule (rules R260, R261) -/

section

variable {p : Params} {bad : Instr → Prop} {timer : State → Byte}

/-- A timer goes down by the number of ticks, where a tick takes 1 off and neither a step that runs no `bad` instruction, nor a
load, nor the keys write it. -/
theorem timer_counts_ticks (htick : ∀ s, (timer s.tick).toNat = (timer s).toNat - 1)
    (hstep : ∀ i s t, Commits i s t → ¬bad i → timer t = timer s)
    (hload : ∀ s a bytes, timer (s.storeBytes a bytes) = timer s) (hkeys : ∀ s k, timer (s.setKeys k) = timer s)
    {events : List Event} {s : State} (h : Avoids p bad events s) :
    (timer (runEvents p events s).2).toNat = (timer s).toNat - events.count .tick := by
  induction events generalizing s with
  | nil => rfl
  | cons e rest ih =>
    obtain ⟨hreset, hbad, hrest⟩ := h
    have hnext := ih hrest
    have hother (he : e ≠ .tick) (hkeep : timer (applyEvent p e s).2 = timer s) :
        (timer (runEvents p (e :: rest) s).2).toNat = (timer s).toNat - (e :: rest).count .tick := by
      rw [List.count_cons_of_ne he, ← hkeep]
      exact hnext
    cases e with
    | reset entry => exact absurd rfl (hreset entry)
    | tick =>
      rw [List.count_cons_self, Nat.add_comm, ← Nat.sub_sub, ← htick]
      exact hnext
    | load bytes offset =>
      exact hother nofun (load_keeps (P := fun t => timer t = timer s) rfl fun _ => hload s offset bytes)
    | keys k => exact hother nofun (hkeys s k)
    | step rnd =>
      refine hother nofun (settle_keeps (P := fun t => timer t = timer s) rfl fun t ht => ?_)
      obtain ⟨op, i, hf, -, hi, hc⟩ := StepCommits.commits (Or.inr ⟨p, rnd, ht⟩)
      exact hstep i s t hc (hbad rnd rfl op i hf hi)
    | readFramebuffer | readSound => exact hother nofun rfl

end

section

variable {i : Instr} {s t : State}

theorem Commits.dt (h : Commits i s t) (hi : ¬∃ x, i = .ldDtVx x) : t.dt = s.dt := by
  obtain ⟨-, -, -, hdt, -⟩ := h.unchanged
  cases i with
  | ldDtVx x => exact absurd ⟨x, rfl⟩ hi
  | _ => exact hdt rfl

theorem Commits.st (h : Commits i s t) (hi : ¬∃ x, i = .ldStVx x) : t.st = s.st := by
  obtain ⟨-, -, -, -, hst, -⟩ := h.unchanged
  cases i with
  | ldStVx x => exact absurd ⟨x, rfl⟩ hi
  | _ => exact hst rfl

end

/-! ### Requests sampled together (rule R45) -/

/-- A request that may not be there has its one place in the order, if any. -/
theorem map_servingRank_sublist {α : Type} {f : α → Event} {k : Nat} (o : Option α) (hf : ∀ a, servingRank (f a) = k) :
    ((o.map f).toList.map servingRank).Sublist [k] := by
  cases o with
  | none => exact List.nil_sublist _
  | some a => simp [hf]

theorem schedule_servingRank_sublist (r : Requests) : (r.schedule.map servingRank).Sublist [0, 1, 2, 3, 4] := by
  have htick : ((if r.tick then [Event.tick] else []).map servingRank).Sublist [3] := by
    split_ifs
    · exact List.Sublist.refl _
    · exact List.nil_sublist _
  have hreset := map_servingRank_sublist (f := Event.reset) (k := 0) r.reset fun _ => rfl
  have hload := map_servingRank_sublist (f := fun l : List Byte × Nat => .load l.1 l.2) (k := 1) r.load fun _ => rfl
  have hkeys := map_servingRank_sublist (f := Event.keys) (k := 2) r.keys fun _ => rfl
  have hstep := map_servingRank_sublist (f := Event.step) (k := 4) r.step fun _ => rfl
  simp only [Requests.schedule, List.map_append]
  exact (((hreset.append hload).append hkeys).append htick).append hstep

end Sys2Proof.Claims
end

section
/-! PROOFS. O15, O16, O17, O23, O24, O25, O27, O28, O52: the events other than the step, boot, schedules, and the fetch after a
store. -/

namespace Sys2Proof.Proofs

open Sys2Proof.Machine Sys2Proof.Claims

/-- Settles O16: every field is written, and the memory written reads as FONT and zeros. -/
theorem resetEventSetsEveryPieceOfState : Obligations.ResetEventSetsEveryPieceOfState := fun p entry =>
  have hmem := State.resetWith_readByte p.font entry
  have hwf := State.resetWith_mem_wf p.font entry
  ⟨asReset_of_mem entry _ hmem, hwf, fun s => ⟨s.resetEvent p.font entry, rfl, asReset_of_mem entry s.draws hmem, hwf⟩⟩

/-- Settles O15: with nothing listed memory reads as its background. -/
theorem resetStateIsTheStatedOne : Obligations.ResetStateIsTheStatedOne := asReset_of_mem _ _ State.reset_readByte

/-- Settles O17: nothing is listed, every slot is 0, and `PC` is 0x0200. -/
theorem resetMeetsTheInvariants : Obligations.ResetMeetsTheInvariants := by
  refine ⟨State.reset_mem_wf, fun k => ?_, ?_⟩
  · change (Vector.replicate 16 (0 : Word))[k.val].toNat ≤ 0x1000
    rw [Vector.getElem_replicate]
    decide
  · change (0x0200 : Word).toNat ≤ 0x10FE
    decide

/-- Settles O25: what fits is stored as one run of bytes. -/
theorem loadWritesAllItsBytesOrNone : Obligations.LoadWritesAllItsBytesOrNone := fun _ s bytes offset =>
  ⟨applyEvent_load_of_past, fun hfits => ⟨s.storeBytes offset bytes, applyEvent_load_of_fits hfits, rfl,
    unchanged_storeBytes s offset bytes, fun _ _ => State.storeBytes_readByte_stored⟩⟩

/-- Settles O52: each of the three answers a store, over which the fetch reads; the advance after it leaves memory. -/
theorem theNextFetchSeesAStore : Obligations.TheNextFetchSeesAStore := by
  refine ⟨fun x s t h => ?_, fun x s t h => ?_, fun p bytes offset s t h => ?_⟩
  · obtain rfl := withData_next h
    rw [← State.regsUpTo_eq_map]
    exact fetchesFrom_of_readByte (storeBytes_readByte_eq_overlaid s _ _)
  · obtain rfl := withData_next h
    exact fetchesFrom_of_readByte (storeBytes_readByte_eq_overlaid s _ (digits (s.reg x)))
  · obtain rfl := load_state_of_ok h
    exact fetchesFrom_storeBytes s offset bytes

/-- Settles O23: the load stores the image where the reset has put `PC`, and the fetch sees the store. -/
theorem bootMakesTheImageTheFirstInstruction : Obligations.BootMakesTheImageTheFirstInstruction := by
  intro p s entry b c rest hfits
  rw [runEvents_boot hfits]
  refine ⟨rfl, ?_⟩
  have hpc : entry.toNat + 1 < 4096 := by omega
  obtain ⟨op, hf, hop⟩ := fetchesFrom_storeBytes (s.resetEvent p.font entry) entry.toNat (b :: c :: rest) hpc
  refine ⟨op, hf, ?_⟩
  simpa [overlaid] using hop

/-- Settles O24: the schedule is five parts in the order of their ranks, each of one request or none. -/
theorem sampledRequestsAreServedInTheFixedOrder : Obligations.SampledRequestsAreServedInTheFixedOrder := by
  intro r
  refine ⟨List.Pairwise.sublist (schedule_servingRank_sublist r) (by decide), fun w => ?_, fun b o => ?_, fun k => ?_, ?_,
    fun rnd => ?_⟩ <;> simp [Requests.schedule]

/-- Settles O27, by induction on the schedule: of its events a tick alone, and a step that runs the reloading instruction, writes
the timer. -/
theorem timersCountTheTicks : Obligations.TimersCountTheTicks := fun _ _ _ =>
  ⟨timer_counts_ticks tick_dt_toNat (fun _ _ _ h => h.dt) (fun _ _ _ => rfl) (fun _ _ => rfl),
    timer_counts_ticks tick_st_toNat (fun _ _ _ h => h.st) (fun _ _ _ => rfl) (fun _ _ => rfl)⟩

/-- Settles O28: the keys are replaced, and the read ports answer with the state as it was. -/
theorem keysAndReadPortsDoOnlyTheirOwn : Obligations.KeysAndReadPortsDoOnlyTheirOwn := fun _ s k =>
  ⟨⟨s.setKeys k, rfl, rfl, rfl, fun _ _ => rfl, fun _ => rfl, fun _ => ⟨rfl, rfl⟩, fun _ => rfl, fun _ => rfl, nofun,
    fun _ _ => rfl, fun _ _ => rfl⟩, ⟨s.fb, rfl, fun _ _ => rfl⟩, rfl⟩

end Sys2Proof.Proofs
end

section
/-! SUPPORT. What a call, a return, a result with its flag, a store and a load at `I` and a key wait answer. -/

namespace Sys2Proof.Machine

/-! ### Flags and digits (rules R23, R157 to R161, R185) -/

theorem carryOut_iff {a b : Byte} : carryOut a b = true ↔ 255 < a.toNat + b.toNat := decide_eq_true_iff

theorem notBorrow_iff {a b : Byte} : notBorrow a b = true ↔ b.toNat ≤ a.toNat := decide_eq_true_iff

theorem byte_sub_toNat (a b : Byte) : (a - b).toNat = (a.toNat + 256 - b.toNat) % 256 := by
  have := b.isLt
  rw [BitVec.toNat_sub]
  omega

theorem flagByte_lowBit_toNat : ∀ a : Byte, (flagByte (lowBit a)).toNat = a.toNat % 2 := by decide

theorem flagByte_highBit_toNat : ∀ a : Byte, (flagByte (highBit a)).toNat = a.toNat / 128 := by decide

theorem shiftRight_one_toNat (a : Byte) : (a >>> 1).toNat = a.toNat / 2 := by
  rw [BitVec.toNat_ushiftRight, Nat.shiftRight_eq_div_pow, pow_one]

theorem shiftLeft_one_toNat (a : Byte) : (a <<< 1).toNat = 2 * a.toNat % 256 := by
  rw [BitVec.toNat_shiftLeft, Nat.shiftLeft_eq, pow_one, Nat.mul_comm]

theorem glyphAddress_toNat (b : Byte) : (glyphAddress b).toNat = 5 * b.toNat := by
  have := b.isLt
  rw [glyphAddress, BitVec.toNat_ofNat]
  omega

/-- A byte is its hundreds, tens and ones, each a digit (rule R185). -/
theorem byte_toNat_eq_digits (b : Byte) :
    b.toNat = 100 * (BitVec.ofNat 8 (b.toNat / 100)).toNat + 10 * (BitVec.ofNat 8 (b.toNat / 10 % 10)).toNat +
      (BitVec.ofNat 8 (b.toNat % 10)).toNat ∧
    (BitVec.ofNat 8 (b.toNat / 10 % 10)).toNat ≤ 9 ∧ (BitVec.ofNat 8 (b.toNat % 10)).toNat ≤ 9 := by
  have := b.isLt
  simp only [BitVec.toNat_ofNat]
  omega

/-! ### Data at `I` (rule R54) -/

section

variable {s t : State} {x r : Nibble}

theorem withData_of_fits {len : Nat} (h : len = 0 ∨ s.i.toNat + (len - 1) < 4096) : withData s len t = .next t :=
  (withData_eq s len t).trans (if_pos h)

/-- A byte of `Fx55` reads back as the register that it holds (rule R186). -/
theorem storeBytes_regsUpTo_readByte (hr : r.toNat ≤ x.toNat) :
    (s.storeBytes s.i.toNat (s.regsUpTo x)).readByte (s.i.toNat + r.toNat) = s.reg r :=
  State.storeBytes_readByte_stored ((State.getElem?_regsUpTo s x r).trans (if_pos hr))

/-- A register of `Fx65` holds the byte that stands at its place from `I` on (rule R187). -/
theorem loadRegs_dataBytes_reg (hr : r.toNat ≤ x.toNat) :
    (s.loadRegs (s.dataBytes (x.toNat + 1))).reg r = s.readByte (s.i.toNat + r.toNat) := by
  rw [State.loadRegs_reg, State.getElem?_dataBytes, if_pos (Nat.lt_succ_of_le hr), Option.getD_some]

theorem execLdVxMem_of_fits (h : s.i.toNat + x.toNat < 4096) :
    exec (.ldVxMem x) s = .next (s.loadRegs (s.dataBytes (x.toNat + 1))).advance :=
  withData_of_fits (Or.inr h)

/-- The key wait stores the one key that is down with none below it down (rule R222). -/
theorem execLdVxK_of_least {k : Nat} (hdown : s.keys.getLsbD k = true) (hleast : ∀ j < k, s.keys.getLsbD j = false) :
    execLdVxK x s = .next (s.setReg x (BitVec.ofNat 8 k)).advance := by
  rcases execLdVxK_cases s x with ⟨hkeys, -⟩ | ⟨j, -, hj, hjleast, hx⟩
  · simp [hkeys] at hdown
  · obtain hlt | rfl | hlt := Nat.lt_trichotomy j k
    · simp [hleast j hlt] at hj
    · exact hx
    · simp [hjleast k hlt] at hdown

theorem execLdVxK_of_none (h : ∀ k < 16, s.keys.getLsbD k = false) : execLdVxK x s = .next s := by
  rcases execLdVxK_cases s x with ⟨-, hx⟩ | ⟨k, hk, hdown, -⟩
  · exact hx
  · simp [h k hk] at hdown

end

end Sys2Proof.Machine

namespace Sys2Proof.Claims

open Sys2Proof.Machine

theorem Unchanged.trans {m : MayChange} {s t u : State} (h : Unchanged m s t) (h' : Unchanged m t u) : Unchanged m s u := by
  obtain ⟨hreg, hi, hstack, hdt, hst, hkeys, hfb, hmem⟩ := h
  obtain ⟨hreg', hi', hstack', hdt', hst', hkeys', hfb', hmem'⟩ := h'
  exact ⟨fun r hr => (hreg' r hr).trans (hreg r hr), fun hm => (hi' hm).trans (hi hm),
    fun hm => ⟨(hstack' hm).1.trans (hstack hm).1, (hstack' hm).2.trans (hstack hm).2⟩,
    fun hm => (hdt' hm).trans (hdt hm), fun hm => (hst' hm).trans (hst hm), fun hm => (hkeys' hm).trans (hkeys hm),
    fun hm j => (hfb' hm j).trans (hfb hm j), fun a ha => (hmem' a ha).trans (hmem a ha)⟩

/-! ### The stack (rules R111, R114) -/

theorem call_completes {s : State} (nnn : Addr12) (hsp : s.sp.val < 16) : Completes (.call nnn) s { stack := true }
    (fun t => t.pc.toNat = nnn.toNat ∧ t.sp.val = s.sp.val + 1 ∧
      ∀ k : Fin 16, (k.val = s.sp.val → s.pc.toNat ≤ 0xFFE → t.stack[k].toNat = s.pc.toNat + 2) ∧
        (k.val ≠ s.sp.val → t.stack[k] = s.stack[k])) := by
  rcases execCall_cases s nnn with ⟨hfull, -⟩ | ⟨_, hx⟩
  · omega
  · refine completes_of_exec hx ⟨address_toNat nnn, rfl, fun k => ⟨fun hk hpc => ?_, fun hk => ?_⟩⟩
    · have hpush : (s.stack.set s.sp.val (s.pc + 2#16) hsp)[k] = s.pc + 2#16 := by simp [hk]
      exact (congrArg BitVec.toNat hpush).trans (advance_pc_toNat (by omega))
    · exact Vector.getElem_set_ne hsp k.isLt hk.symm

theorem ret_completes {s : State} {k : Fin 16} (hk : s.sp.val = k.val + 1) : Completes .ret s { stack := true }
    (fun t => t.pc = s.stack[k] ∧ t.sp.val = k.val ∧ t.stack = s.stack) := by
  rcases execRet_cases s with ⟨hempty, -⟩ | ⟨j, hj, hx⟩
  · omega
  · obtain rfl : j = k := Fin.ext (by omega)
    exact completes_of_exec hx ⟨rfl, rfl, rfl⟩

/-! ### A result with its flag (rules R23, R157 to R161) -/

/-- An instruction that answers a result with its flag leaves the flag in `VF`, whatever its destination, and the result in any
other destination; `p` and `q` are what is claimed of the two. -/
theorem setResult_completes {i : Instr} {s : State} {x : Nibble} {b : Byte} {c : Bool} (p q : Byte → Prop)
    (hexec : exec i s = .next (s.setResult x b c).advance) (hp : p b) (hq : q (flagByte c)) :
    Completes i s { regs := [x, 15] } (fun t => (x ≠ 15 → p (t.reg x)) ∧ q (t.reg 15) ∧ Advances 2 s t) := by
  refine ⟨_, hexec, unchanged_setResult_advance s x b c, fun hx => ?_, ?_, advances_of_pc_eq (State.setResult_pc ..)⟩
  · have hx : x ≠ 15#4 := hx
    rwa [State.advance_reg, State.setResult_reg, if_neg hx, if_pos rfl]
  · rwa [setResult_flag]

/-- What `FlagIs` says of the byte in `VF`. -/
def IsFlagOf (p : Prop) (b : Byte) : Prop := (p → b = 1) ∧ (¬p → b = 0)

theorem flagByte_isFlagOf {p : Prop} {c : Bool} (h : c = true ↔ p) : IsFlagOf p (flagByte c) := by
  cases c with
  | true => exact ⟨fun _ => rfl, fun hn => absurd (h.mp rfl) hn⟩
  | false => exact ⟨fun hp => absurd (h.mpr hp) nofun, fun _ => rfl⟩

end Sys2Proof.Claims
end

section
/-! PROOFS. O32, O33, O34, O35, O38: the jump with offset, the stack, and the skips on a key. -/

namespace Sys2Proof.Proofs

open Sys2Proof.Machine Sys2Proof.Claims

/-- Settles O32: a 12-bit address and a byte sum to less than 65536. -/
theorem jumpWithOffsetAddsV0 : Obligations.JumpWithOffsetAddsV0 := fun nnn s =>
  completes_of_exec rfl (address_add_widen_toNat nnn (s.reg 0))

/-- Settles O33: a push writes slot `SP` alone, and there is none where all sixteen slots are live. -/
theorem callPushesTheReturnAddress : Obligations.CallPushesTheReturnAddress := fun nnn _ =>
  ⟨call_completes nnn, fun hfull => exec_fault_iff.mpr ⟨hfull, rfl⟩⟩

/-- Settles O34: a pop reads the newest slot and writes none. -/
theorem returnPopsTheNewestAddress : Obligations.ReturnPopsTheNewestAddress := fun _ =>
  ⟨fun _ => ret_completes, fun hempty => exec_fault_iff.mpr ⟨hempty, rfl⟩⟩

/-- Settles O35: the return pops the slot that the call has pushed. -/
theorem callThenReturnComesBack : Obligations.CallThenReturnComesBack := by
  intro nnn s hsp hpc
  obtain ⟨t, hcall, hst, -, htsp, hslots⟩ := call_completes nnn hsp
  obtain ⟨u, hret, htu, hupc, husp, hustack⟩ := ret_completes (s := t) (k := ⟨s.sp.val, hsp⟩) htsp
  refine ⟨t, u, hcall, hret, ?_, Fin.ext husp, hst.trans htu, fun k => ?_⟩
  · rw [hupc]
    exact (hslots _).1 rfl hpc
  · rw [hustack]
    exact ⟨(hslots k).2, fun hk => (hslots k).1 hk hpc⟩

/-- Settles O38: up to 15 the answer is a skip on the key's bit; above, the check of the key number fails. -/
theorem keySkipsReadTheKeyOfTheRegister : Obligations.KeySkipsReadTheKeyOfTheRegister := by
  refine fun x s => ⟨fun hkey => ?_, fun hkey => ⟨exec_fault_iff.mpr ⟨hkey, rfl⟩, exec_fault_iff.mpr ⟨hkey, rfl⟩⟩⟩
  have hexec (t : State) : withKey s x t = .next t := (withKey_eq s x t).trans (if_neg (Nat.not_lt.mpr hkey))
  constructor
  · exact skip_completes (hexec _) Iff.rfl Iff.rfl
  · exact skip_completes (hexec _) (Bool.not_eq_true' _).to_iff (Bool.not_eq_false' _).to_iff

end Sys2Proof.Proofs
end

section
/-! PROOFS. O40, O41, O42, O43, O47: the ALU and the arithmetic on `I`. -/

namespace Sys2Proof.Proofs

open Sys2Proof.Machine Sys2Proof.Claims

/-- Settles O40: each answers one register write, of the bitwise operation, with an advance. -/
theorem logicWorksBitByBit : Obligations.LogicWorksBitByBit := by
  refine fun x y s => ⟨?_, ?_, ?_⟩
  · refine setReg_completes (fun b => ∀ k < 8, b.getLsbD k = true ↔ (s.reg x).getLsbD k = true ∨ (s.reg y).getLsbD k = true) rfl
      fun k _ => ?_
    rw [BitVec.getLsbD_or, Bool.or_eq_true]
  · refine setReg_completes (fun b => ∀ k < 8, b.getLsbD k = true ↔ (s.reg x).getLsbD k = true ∧ (s.reg y).getLsbD k = true) rfl
      fun k _ => ?_
    rw [BitVec.getLsbD_and, Bool.and_eq_true]
  · refine setReg_completes (fun b => ∀ k < 8, b.getLsbD k = true ↔ (s.reg x).getLsbD k ≠ (s.reg y).getLsbD k) rfl
      fun k _ => ?_
    rw [BitVec.getLsbD_xor, bne_iff_ne]

/-- Settles O41: a sum of bytes with its carry. -/
theorem addGivesSumAndCarry : Obligations.AddGivesSumAndCarry := fun x y s =>
  setResult_completes (·.toNat = ((s.reg x).toNat + (s.reg y).toNat) % 256)
    (IsFlagOf (255 < (s.reg x).toNat + (s.reg y).toNat)) rfl (BitVec.toNat_add _ _) (flagByte_isFlagOf carryOut_iff)

/-- Settles O42: a difference of bytes with its not-borrow, once each way round. -/
theorem subtractGivesDifferenceAndNotBorrow : Obligations.SubtractGivesDifferenceAndNotBorrow := fun x y s =>
  ⟨setResult_completes (·.toNat = ((s.reg x).toNat + 256 - (s.reg y).toNat) % 256)
      (IsFlagOf ((s.reg y).toNat ≤ (s.reg x).toNat)) rfl (byte_sub_toNat _ _) (flagByte_isFlagOf notBorrow_iff),
    setResult_completes (·.toNat = ((s.reg y).toNat + 256 - (s.reg x).toNat) % 256)
      (IsFlagOf ((s.reg x).toNat ≤ (s.reg y).toNat)) rfl (byte_sub_toNat _ _) (flagByte_isFlagOf notBorrow_iff)⟩

/-- Settles O43: a shift of `V[x]` by one place with the bit shifted out; `y` is not read. -/
theorem shiftsGiveHalfAndDoubleAndTheBitOut : Obligations.ShiftsGiveHalfAndDoubleAndTheBitOut := fun x _ s =>
  ⟨setResult_completes (·.toNat = (s.reg x).toNat / 2) (·.toNat = (s.reg x).toNat % 2) rfl
      (shiftRight_one_toNat _) (flagByte_lowBit_toNat _),
    setResult_completes (·.toNat = 2 * (s.reg x).toNat % 256) (·.toNat = (s.reg x).toNat / 128) rfl
      (shiftLeft_one_toNat _) (flagByte_highBit_toNat _)⟩

/-- Settles O47: each answers one write of `I` with an advance. -/
theorem indexArithmetic : Obligations.IndexArithmetic := by
  refine fun x s => ⟨setI_completes (·.toNat = (s.i.toNat + (s.reg x).toNat) % 65536) rfl ?_,
    setI_completes (·.toNat = 5 * (s.reg x).toNat) rfl (glyphAddress_toNat _)⟩
  rw [BitVec.toNat_add, widen_toNat]

end Sys2Proof.Proofs
end

section
/-! PROOFS. O48, O49, O50, O51, O59: stores and loads at `I`, and the key wait. -/

namespace Sys2Proof.Proofs

open Sys2Proof.Machine Sys2Proof.Claims

/-- Settles O48: the three bytes stored are the digits of `V[x]`. -/
theorem decimalDigitsAreStoredAtI : Obligations.DecimalDigitsAreStoredAtI := by
  refine fun x s => ⟨fun hfits => ?_, fun hpast => exec_fault_iff.mpr ⟨hpast, rfl⟩⟩
  have hexec : exec (.ldBVx x) s = .next (s.storeBytes s.i.toNat (digits (s.reg x))).advance :=
    withData_of_fits (Or.inr hfits)
  have hread (k : Nat) (b : Byte) (hb : (digits (s.reg x))[k]? = some b) :
      (s.storeBytes s.i.toNat (digits (s.reg x))).advance.readByte (s.i.toNat + k) = b :=
    State.storeBytes_readByte_stored hb
  obtain ⟨hsum, htens, hones⟩ := byte_toNat_eq_digits (s.reg x)
  have h0 := hread 0 _ rfl
  rw [Nat.add_zero] at h0
  refine completes_of_exec hexec ⟨?_, ?_, ?_, advances_of_pc_eq rfl⟩
  · rw [h0, hread 1 _ rfl, hread 2 _ rfl]
    exact hsum
  · rw [hread 1 _ rfl]
    exact htens
  · rw [hread 2 _ rfl]
    exact hones

/-- Settles O49: the byte at `I + r` is the one that the store has put there for `V[r]`. -/
theorem registersAreStoredAtI : Obligations.RegistersAreStoredAtI := by
  refine fun x s => ⟨fun hfits => ?_, fun hpast => exec_fault_iff.mpr ⟨hpast, rfl⟩⟩
  have hexec : exec (.ldMemVx x) s = .next (s.storeBytes s.i.toNat (s.regsUpTo x)).advance :=
    withData_of_fits (Or.inr hfits)
  exact completes_of_exec hexec ⟨fun _ => storeBytes_regsUpTo_readByte, advances_of_pc_eq rfl⟩

/-- Settles O50: the registers up to `V[x]` are those loaded, and the frame holds all others. -/
theorem registersAreLoadedFromI : Obligations.RegistersAreLoadedFromI := by
  refine fun x s => ⟨fun hfits => ?_, fun hpast => exec_fault_iff.mpr ⟨hpast, rfl⟩⟩
  have hexec := execLdVxMem_of_fits hfits
  obtain ⟨hregs, -⟩ := exec_unchanged hexec
  refine completes_of_exec hexec ⟨fun _ => loadRegs_dataBytes_reg, fun r hr => ?_, advances_of_pc_eq rfl⟩
  exact hregs r (mem_regsTo.not.mpr (Nat.not_le.mpr hr))

/-- Settles O51: the load reads, from the `I` of the store, the bytes that the store wrote. -/
theorem storedRegistersComeBack : Obligations.StoredRegistersComeBack := by
  intro x s t u hstore hi hbytes
  have hfits := withData_fits hstore
  obtain rfl := withData_next hstore
  have hi : u.i = s.i := hi
  refine ⟨_, execLdVxMem_of_fits (by rw [hi]; omega), fun r hr => ?_⟩
  rw [State.advance_reg, loadRegs_dataBytes_reg hr, hi, hbytes]
  exact storeBytes_regsUpTo_readByte hr

/-- Settles O59: with no key down the wait answers the state itself; of the keys that are down one alone has none below it. -/
theorem keyWaitHoldsOrStoresTheLeastKey : Obligations.KeyWaitHoldsOrStoresTheLeastKey := by
  refine fun x s => ⟨execLdVxK_of_none, fun k hk hdown hleast => ?_⟩
  refine setReg_completes (·.toNat = k) (execLdVxK_of_least hdown hleast) ?_
  rw [BitVec.toNat_ofNat]
  omega

end Sys2Proof.Proofs
end

section
/-! SUPPORT. The cells under a sprite: that they are all different, which they are, and what a draw does to them and to `VF`. -/

namespace Sys2Proof.Machine

/-! ### No cell twice (rule R203) -/

/-- A cell tells its column, of eight, and its row, of thirty-two in a row. -/
theorem spriteCell_inj {vx vy row row' col col' : Nat} (hle : row ≤ row') (hlt : row' < row + 32) (hcol : col < 8)
    (hcol' : col' < 8) (h : spriteCell vx vy row col = spriteCell vx vy row' col') : row = row' ∧ col = col' := by
  unfold spriteCell at h
  omega

theorem rowCells_nodup (msbFirst : Bool) (vx vy row : Nat) (b : Byte) : (rowCells msbFirst vx vy row b).Nodup := by
  refine List.Nodup.map_on (fun c hc d hd hcd => ?_) (List.nodup_range.filter _)
  have hc := List.mem_range.mp (List.mem_filter.mp hc).1
  have hd := List.mem_range.mp (List.mem_filter.mp hd).1
  exact (spriteCell_inj (Nat.le_refl row) (by omega) hc hd hcd).2

/-- Of at most 32 rows no two share a cell. -/
theorem spriteCells_nodup (msbFirst : Bool) (vx vy row : Nat) {bytes : List Byte} (hlen : bytes.length ≤ 32) :
    (spriteCells msbFirst vx vy row bytes).Nodup := by
  induction bytes generalizing row with
  | nil => exact List.nodup_nil
  | cons b rest ih =>
    rw [List.length_cons] at hlen
    refine List.nodup_append.mpr ⟨rowCells_nodup .., ih (row + 1) (by omega), fun j hj q hq hjq => ?_⟩
    obtain ⟨col, hcol, hj⟩ := List.mem_map.mp hj
    have hcol := List.mem_range.mp (List.mem_filter.mp hcol).1
    obtain ⟨k, _, hk, col', hcol', -, hq⟩ := (mem_spriteCells ..).mp hq
    obtain ⟨hk, -⟩ := List.getElem?_eq_some_iff.mp hk
    obtain ⟨hrow, -⟩ := spriteCell_inj (by omega) (by omega) hcol hcol' (hj.trans (hjq.trans hq))
    omega

end Sys2Proof.Machine

namespace Sys2Proof.Claims

open Sys2Proof.Machine

section

variable {msbFirst : Bool} {x y n : Nibble} {s : State} {j : Nat}

/-! ### The cells under a sprite, and a draw (rules R202, R206) -/

theorem mem_drawnCells : j ∈ s.drawnCells msbFirst x y n ↔ Covered msbFirst x y n s j := by
  simp only [State.drawnCells, mem_spriteCells, State.getElem?_dataBytes, Option.ite_none_right_eq_some, Option.some_inj,
    Nat.zero_add]
  have hbit (b : Byte) (col : Nat) :
      spriteBit msbFirst b col = b.getLsbD (if msbFirst = true then 7 - col else col) := by
    cases msbFirst <;> rfl
  constructor
  · rintro ⟨row, _, ⟨hrow, rfl⟩, col, hcol, hset, hj⟩
    exact ⟨row, hrow, col, hcol, hbit _ col ▸ hset, hj⟩
  · rintro ⟨row, hrow, col, hcol, hset, hj⟩
    exact ⟨row, _, ⟨hrow, rfl⟩, col, hcol, (hbit _ col).trans hset, hj⟩

/-- A draw turns over the cells under the sprite and no others, and flags that one of them was 1. -/
theorem drawCells_drawnCells (msbFirst : Bool) (x y n : Nibble) (s : State) :
    (drawCells (s.drawnCells msbFirst x y n) false s.fb).1 = (s.drawnCells msbFirst x y n).any s.cell ∧
    ∀ j, (drawState msbFirst x y n s).cell j = (s.cell j ^^ decide (j ∈ s.drawnCells msbFirst x y n)) := by
  have hn := nibble_lt n
  have hnodup : (s.drawnCells msbFirst x y n).Nodup := spriteCells_nodup _ _ _ _ (by rw [State.length_dataBytes]; omega)
  exact drawCells_eq _ false s.fb hnodup fun _ => spriteCells_lt

theorem drawState_cell_of_covered (h : Covered msbFirst x y n s j) : (drawState msbFirst x y n s).cell j = !s.cell j := by
  rw [(drawCells_drawnCells msbFirst x y n s).2, decide_eq_true (mem_drawnCells.mpr h), Bool.xor_true]

theorem drawState_cell_of_not_covered (h : ¬Covered msbFirst x y n s j) :
    (drawState msbFirst x y n s).cell j = s.cell j := by
  rw [(drawCells_drawnCells msbFirst x y n s).2, decide_eq_false (mem_drawnCells.not.mpr h), Bool.xor_false]

theorem drawState_flagIs (msbFirst : Bool) (x y n : Nibble) (s : State) :
    FlagIs (∃ j < 2048, Covered msbFirst x y n s j ∧ s.cell j = true) (drawState msbFirst x y n s) := by
  have hhit : (drawCells (s.drawnCells msbFirst x y n) false s.fb).1 = true ↔
      ∃ j < 2048, Covered msbFirst x y n s j ∧ s.cell j = true := by
    rw [(drawCells_drawnCells msbFirst x y n s).1, List.any_eq_true]
    constructor
    · rintro ⟨j, hj, hcell⟩
      exact ⟨j, spriteCells_lt hj, mem_drawnCells.mp hj, hcell⟩
    · rintro ⟨j, -, hj, hcell⟩
      exact ⟨j, mem_drawnCells.mpr hj, hcell⟩
  have hflag := flagByte_isFlagOf hhit
  rwa [← drawState_flag] at hflag

theorem drawState_drawn (msbFirst : Bool) (x y n : Nibble) (s : State) :
    Drawn msbFirst x y n s (drawState msbFirst x y n s) :=
  ⟨fun _ _ => ⟨drawState_cell_of_covered, drawState_cell_of_not_covered⟩, drawState_flagIs msbFirst x y n s,
    advances_of_pc_eq rfl⟩

/-- A draw leaves what the next draw of the same sprite reads: `I`, the bytes there, and the coordinates, unless `VF` is one. -/
theorem drawState_covered_iff (hx : x ≠ 15) (hy : y ≠ 15) :
    Covered msbFirst x y n (drawState msbFirst x y n s) j ↔ Covered msbFirst x y n s j := by
  have hreg (r : Nibble) (hr : r ≠ 15) : (drawState msbFirst x y n s).reg r = s.reg r :=
    (unchanged_drawState s msbFirst x y n).1 r (by simpa using hr)
  have hi : (drawState msbFirst x y n s).i = s.i := rfl
  have hmem (a : Nat) : (drawState msbFirst x y n s).readByte a = s.readByte a := rfl
  simp only [Covered, hreg x hx, hreg y hy, hi, hmem]

/-- Drawn again, the sprite turns its cells back. -/
theorem drawState_twice_cell (hx : x ≠ 15) (hy : y ≠ 15) :
    (drawState msbFirst x y n (drawState msbFirst x y n s)).cell j = s.cell j := by
  by_cases hj : Covered msbFirst x y n s j
  · rw [drawState_cell_of_covered ((drawState_covered_iff hx hy).mpr hj), drawState_cell_of_covered hj, Bool.not_not]
  · rw [drawState_cell_of_not_covered ((drawState_covered_iff hx hy).not.mpr hj), drawState_cell_of_not_covered hj]

/-- The second draw meets a 1 where the first met a 0. -/
theorem drawState_twice_flagIs (hx : x ≠ 15) (hy : y ≠ 15) :
    FlagIs (∃ j < 2048, Covered msbFirst x y n s j ∧ s.cell j = false)
      (drawState msbFirst x y n (drawState msbFirst x y n s)) := by
  have hmet : (∃ j < 2048, Covered msbFirst x y n (drawState msbFirst x y n s) j ∧
      (drawState msbFirst x y n s).cell j = true) ↔ ∃ j < 2048, Covered msbFirst x y n s j ∧ s.cell j = false := by
    refine exists_congr fun j => and_congr_right fun _ => ?_
    rw [drawState_covered_iff hx hy]
    refine and_congr_right fun hj => ?_
    rw [drawState_cell_of_covered hj, Bool.not_eq_true']
  have hflag := drawState_flagIs msbFirst x y n (drawState msbFirst x y n s)
  rwa [hmet] at hflag

/-! ### Whether the sprite's bytes exist (rule R54) -/

theorem execDrwIn_of_fits (h : SpriteFits n s) : execDrwIn msbFirst x y n s = .next (drawState msbFirst x y n s) := by
  unfold SpriteFits at h
  exact withData_of_fits (by omega)

theorem ownError_drw_of_not_fits (h : ¬SpriteFits n s) :
    OwnError (.drw x y n) s (.outOfBounds .data (max s.i.toNat 4096)) := by
  unfold SpriteFits at h
  exact ⟨by omega, by omega, rfl⟩

end

end Sys2Proof.Claims
end

section
/-! PROOFS. O54, O55, O56: the draw. -/

namespace Sys2Proof.Proofs

open Sys2Proof.Machine Sys2Proof.Claims

/-- Settles O55, by induction on the rows: a row's columns are all different modulo 64, and its cells are in no later row. -/
theorem aSpriteTouchesNoCellTwice : Obligations.ASpriteTouchesNoCellTwice :=
  fun msbFirst vx vy _ hlen => spriteCells_nodup msbFirst vx vy 0 (hlen.trans (by decide))

/-- Settles O54: the cells under the sprite are all different, so each is turned over once, in either bit order. -/
theorem drawTogglesTheCoveredCells : Obligations.DrawTogglesTheCoveredCells := fun x y n s =>
  ⟨fun hfits => completes_of_exec (execDrwIn_of_fits hfits) (drawState_drawn true x y n s),
    fun hpast => exec_fault_iff.mpr (ownError_drw_of_not_fits hpast), fun p _ =>
    ⟨fun hfits => ⟨_, execDrwIn_of_fits hfits, unchanged_drawState s p.spriteMsbFirst x y n, drawState_drawn _ x y n s⟩,
      fun hpast => execWith_fault_iff.mpr (ownError_drw_of_not_fits hpast)⟩⟩

/-- Settles O56: the second draw covers the cells of the first, and turns each back. -/
theorem drawingTwiceRestoresTheFramebuffer : Obligations.DrawingTwiceRestoresTheFramebuffer := by
  intro p rnd rnd' x y n s hx hy hfits
  have hfirst (rnd : Byte) : execWith p rnd (.drw x y n) s = .next (drawState p.spriteMsbFirst x y n s) :=
    execDrwIn_of_fits hfits
  have hsecond (rnd : Byte) : execWith p rnd (.drw x y n) (drawState p.spriteMsbFirst x y n s) =
      .next (drawState p.spriteMsbFirst x y n (drawState p.spriteMsbFirst x y n s)) :=
    execDrwIn_of_fits (s := drawState p.spriteMsbFirst x y n s) hfits
  have hdefault (hmsb : p.spriteMsbFirst = true) (rnd : Byte) (t : State) :
      exec (.drw x y n) t = execWith p rnd (.drw x y n) t :=
    (execWith_eq_exec (by simp) (Or.inl hmsb)).symm
  exact ⟨_, _, hfirst rnd, hsecond rnd',
    fun hmsb => ⟨(hdefault hmsb rnd _).trans (hfirst rnd), (hdefault hmsb rnd' _).trans (hsecond rnd')⟩,
    fun _ _ => drawState_twice_cell hx hy, drawState_flagIs _ x y n s, drawState_twice_flagIs hx hy⟩

end Sys2Proof.Proofs
end
